-- ==== Sys2Proof/Word.lean ====
section
/-! DEFINITION. The byte, and the text the output unit emits (rules R5 and R25). -/

namespace Sys2Proof

/-- A byte, bit 0 least significant (rule R5). Every value the core stores is one. -/
abbrev Byte := BitVec 8

/-- A Unicode scalar value (rule R25), as the number the formulas of rule R152 compute. -/
abbrev Scalar := Nat

/-- A text: scalar values in order (rules R25 and R156). -/
abbrev Text := List Scalar

end Sys2Proof
end

