-- ==== Sys2Proof/Syntax.lean ====
section
/-! DEFINITION. The instruction word, the operand forms, and the instructions: one constructor per row of
spec/opcode_table.json, in the table's order. A constructor carries the fields its instruction uses; the fields rule
R71 calls ignored are dropped by the decoder (assumption 10). -/

namespace Sys2Proof

/-- The four bytes of an instruction word, in program order (rule R60). -/
structure InstrWord where
  opcode : Byte
  operand1 : Byte
  operand2 : Byte
  dest : Byte
  deriving DecidableEq, Repr

/-- An operand with its immediate flag (rules R14 and R63). -/
inductive Operand where
  /-- Flag 1: the value is the byte itself. -/
  | imm (value : Byte)
  /-- Flag 0: a register reference; the low 3 bits of the byte are the register's index. -/
  | reg (index : Byte)
  deriving DecidableEq, Repr

/-- The rows of the opcode map (rule R66), and class 3 (rule R67). In `dest : Byte` the low 3 bits name the register
written (rule R64); in `target : Byte` the whole byte is a word index (rule R110). -/
inductive Instr where
  /-- AND (rule R91). -/
  | and (a b : Operand) (dest : Byte)
  /-- ROR (rule R92). -/
  | ror (a b : Operand) (dest : Byte)
  /-- ADD (rule R93). -/
  | add (a b : Operand) (dest : Byte)
  /-- XOR (rule R94). -/
  | xor (a b : Operand) (dest : Byte)
  /-- OR (rule R95). -/
  | or (a b : Operand) (dest : Byte)
  /-- ROL (rule R96). -/
  | rol (a b : Operand) (dest : Byte)
  /-- SUB (rule R97). -/
  | sub (a b : Operand) (dest : Byte)
  /-- NOT (rule R98). -/
  | not (a : Operand) (dest : Byte)
  /-- JMP (rule R111). -/
  | jmp (target : Byte)
  /-- JNE (rule R112). -/
  | jne (a b : Operand) (target : Byte)
  /-- JGE (rule R113). -/
  | jge (a b : Operand) (target : Byte)
  /-- JGT (rule R114). -/
  | jgt (a b : Operand) (target : Byte)
  /-- NOP (rule R115). -/
  | nop
  /-- JEQ (rule R116). -/
  | jeq (a b : Operand) (target : Byte)
  /-- JLT (rule R117). -/
  | jlt (a b : Operand) (target : Byte)
  /-- JLE (rule R118). -/
  | jle (a b : Operand) (target : Byte)
  /-- MOV (rule R131). -/
  | mov (a : Operand) (dest : Byte)
  /-- SWAP (rule R132): the low 3 bits of both operand bytes name slots, whatever the flags say. -/
  | swap (i j : Byte)
  /-- PUSH (rule R133). -/
  | push (a : Operand)
  /-- POP (rule R134). -/
  | pop (dest : Byte)
  /-- WRT (rule R150). -/
  | wrt (a format : Operand)
  /-- CALL (rule R135). -/
  | call (a : Operand)
  /-- JRE (rule R136). -/
  | jre
  /-- HCF (rule R137). -/
  | hcf
  /-- A word of class 3, which has no mnemonic (rule R67). -/
  | class3
  deriving DecidableEq, Repr

end Sys2Proof
end

