-- ==== Sys2Proof/WellFormed.lean ====
section
/-! DEFINITION. The well-formed instructions: those whose register index bytes are 0 to 7, which is all the assembler
emits (rules R76 and R79). No instruction outside is refused by the machine, since no encoding is illegal (rule R70):
index bytes above 7 act by their low 3 bits (assumption 12). Well-formed instructions are the ones whose meaning does
not rest on that choice of the spec (92_eei_decisions.md D4). -/

namespace Sys2Proof

/-- A byte that names a register without a bit to spare. -/
def indexInRange (b : Byte) : Bool := decide (b.toNat < 8)

/-- Immediates of every value are well-formed; a register operand must name an index 0 to 7. -/
def Operand.wellFormed : Operand → Bool
  | .imm _ => true
  | .reg b => indexInRange b

/-- The check, one line per constructor. -/
def Instr.wellFormed : Instr → Bool
  | .and a b d => a.wellFormed && b.wellFormed && indexInRange d
  | .ror a b d => a.wellFormed && b.wellFormed && indexInRange d
  | .add a b d => a.wellFormed && b.wellFormed && indexInRange d
  | .xor a b d => a.wellFormed && b.wellFormed && indexInRange d
  | .or a b d => a.wellFormed && b.wellFormed && indexInRange d
  | .rol a b d => a.wellFormed && b.wellFormed && indexInRange d
  | .sub a b d => a.wellFormed && b.wellFormed && indexInRange d
  | .not a d => a.wellFormed && indexInRange d
  | .jmp _ => true
  | .jne a b _ => a.wellFormed && b.wellFormed
  | .jge a b _ => a.wellFormed && b.wellFormed
  | .jgt a b _ => a.wellFormed && b.wellFormed
  | .nop => true
  | .jeq a b _ => a.wellFormed && b.wellFormed
  | .jlt a b _ => a.wellFormed && b.wellFormed
  | .jle a b _ => a.wellFormed && b.wellFormed
  | .mov a d => a.wellFormed && indexInRange d
  | .swap i j => indexInRange i && indexInRange j
  | .push a => a.wellFormed
  | .pop d => indexInRange d
  | .wrt a f => a.wellFormed && f.wellFormed
  | .call a => a.wellFormed
  | .jre => true
  | .hcf => true
  | .class3 => true

/-- A well-formed instruction. -/
abbrev WellFormed (i : Instr) : Prop := i.wellFormed = true

end Sys2Proof
end

