-- ==== Sys2Proof/Decode.lean ====
section
/-! DEFINITION. The decoder (rules R60 to R67 and R70) and, after it, the encoder, both from the one field layout of
rule R61 and the one opcode map of rule R66. -/

namespace Sys2Proof

/-- Opcode bit 6 (rule R61). -/
def imm1 (opcode : Byte) : Bool := opcode.getLsbD 6

/-- Opcode bit 5 (rule R61). -/
def imm2 (opcode : Byte) : Bool := opcode.getLsbD 5

/-- An operand byte under its immediate flag (rule R63). -/
def flagged (immediate : Bool) (b : Byte) : Operand :=
  match immediate with
  | true => .imm b
  | false => .reg b

/-- The instruction a word stands for. The five bits matched are class (bits 4 and 3) and subtype (bits 2 to 0), so the
rows below are the opcode map of rule R66 with class 3 (rule R67) last. Bit 7 is not looked at (rule R62), and every word
has an instruction (rule R70). -/
def decodeWord (w : InstrWord) : Instr :=
  let a := flagged (imm1 w.opcode) w.operand1
  let b := flagged (imm2 w.opcode) w.operand2
  let d := w.dest
  match w.opcode.getLsbD 4, w.opcode.getLsbD 3, w.opcode.getLsbD 2, w.opcode.getLsbD 1, w.opcode.getLsbD 0 with
  | false, false, false, false, false => .and a b d
  | false, false, false, false, true => .ror a b d
  | false, false, false, true, false => .add a b d
  | false, false, false, true, true => .xor a b d
  | false, false, true, false, false => .or a b d
  | false, false, true, false, true => .rol a b d
  | false, false, true, true, false => .sub a b d
  | false, false, true, true, true => .not a d
  | false, true, false, false, false => .jmp d
  | false, true, false, false, true => .jne a b d
  | false, true, false, true, false => .jge a b d
  | false, true, false, true, true => .jgt a b d
  | false, true, true, false, false => .nop
  | false, true, true, false, true => .jeq a b d
  | false, true, true, true, false => .jlt a b d
  | false, true, true, true, true => .jle a b d
  | true, false, false, false, false => .mov a d
  | true, false, false, false, true => .swap w.operand1 w.operand2
  | true, false, false, true, false => .push a
  | true, false, false, true, true => .pop d
  | true, false, true, false, false => .wrt a b
  | true, false, true, false, true => .call a
  | true, false, true, true, false => .jre
  | true, false, true, true, true => .hcf
  | true, true, _, _, _ => .class3

/-- Why bytes are no instruction. Fewer than four bytes are the only case (rules R60, R68 and R70). -/
inductive DecodeError where
  | truncatedWord
  deriving DecidableEq, Repr

/-- Decoding at the head of any bytes: the instruction and the bytes after it (rules R43 and R60). -/
def decode : List Byte → Except DecodeError (Instr × List Byte)
  | op :: o1 :: o2 :: d :: rest => .ok (decodeWord ⟨op, o1, o2, d⟩, rest)
  | _ => .error .truncatedWord

/-- The opcode byte `imm1 << 6 | imm2 << 5 | class << 3 | subtype`, bit 7 written 0 (rules R61, R62 and R79). -/
def opcodeByte (f1 f2 : Bool) (cls : BitVec 2) (sub : BitVec 3) : Byte :=
  (0#1 ++ BitVec.ofBool f1 ++ BitVec.ofBool f2 ++ cls ++ sub : BitVec (1 + 1 + 1 + 2 + 3))

/-- The immediate flag an operand is encoded with (rule R79). -/
def Operand.flag : Operand → Bool
  | .imm _ => true
  | .reg _ => false

/-- The byte an operand is encoded as (rule R79). -/
def Operand.byte : Operand → Byte
  | .imm v => v
  | .reg b => b

/-- A word with both operands and `dest` in use. -/
def wordABD (cls : BitVec 2) (sub : BitVec 3) (a b : Operand) (d : Byte) : InstrWord :=
  ⟨opcodeByte a.flag b.flag cls sub, a.byte, b.byte, d⟩

/-- The word of an instruction. A field the instruction does not use is written as the assembler writes the literal `0`
of the shorthand forms: byte 0, flag 1 (rules R78 and R79, assumption 25). -/
def encodeWord : Instr → InstrWord
  | .and a b d => wordABD 0 0 a b d
  | .ror a b d => wordABD 0 1 a b d
  | .add a b d => wordABD 0 2 a b d
  | .xor a b d => wordABD 0 3 a b d
  | .or a b d => wordABD 0 4 a b d
  | .rol a b d => wordABD 0 5 a b d
  | .sub a b d => wordABD 0 6 a b d
  | .not a d => wordABD 0 7 a (.imm 0) d
  | .jmp d => wordABD 1 0 (.imm 0) (.imm 0) d
  | .jne a b d => wordABD 1 1 a b d
  | .jge a b d => wordABD 1 2 a b d
  | .jgt a b d => wordABD 1 3 a b d
  | .nop => wordABD 1 4 (.imm 0) (.imm 0) 0
  | .jeq a b d => wordABD 1 5 a b d
  | .jlt a b d => wordABD 1 6 a b d
  | .jle a b d => wordABD 1 7 a b d
  | .mov a d => wordABD 2 0 a (.imm 0) d
  | .swap i j => wordABD 2 1 (.reg i) (.reg j) 0
  | .push a => wordABD 2 2 a (.imm 0) 0
  | .pop d => wordABD 2 3 (.imm 0) (.imm 0) d
  | .wrt a f => wordABD 2 4 a f 0
  | .call a => wordABD 2 5 a (.imm 0) 0
  | .jre => wordABD 2 6 (.imm 0) (.imm 0) 0
  | .hcf => wordABD 2 7 (.imm 0) (.imm 0) 0
  | .class3 => wordABD 3 0 (.reg 0) (.reg 0) 0

/-- The bytes of a word in program order (rule R43). -/
def InstrWord.bytes (w : InstrWord) : List Byte := [w.opcode, w.operand1, w.operand2, w.dest]

/-- The bytes of an instruction. -/
def encode (i : Instr) : List Byte := (encodeWord i).bytes

/-- The opcode table's number of a word, `opcode * 2^24 + operand1 * 2^16 + operand2 * 2^8 + dest` (92_eei_decisions.md
D18), taken apart into a word. -/
def InstrWord.ofTable (w : Nat) : InstrWord :=
  ⟨BitVec.ofNat 8 (w / 2 ^ 24), BitVec.ofNat 8 (w / 2 ^ 16), BitVec.ofNat 8 (w / 2 ^ 8), BitVec.ofNat 8 w⟩

/-- The word the table's low `nbits` bits of `w` give, every bit above 0 (assumption 22). -/
def tableWord (nbits w : Nat) : InstrWord := InstrWord.ofTable (w % 2 ^ nbits)

/-- The instruction the decoder reads from an instruction numbered as spec/opcode_table.json numbers it. -/
def decodeTableWord (nbits w : Nat) : Option Instr :=
  match decode (tableWord nbits w).bytes with
  | .ok (i, _) => some i
  | .error _ => none

end Sys2Proof
end

