-- ==== Sys2Proof/Config.lean ====
section
/-! DEFINITION. The parameters of rule R4 that the source fixes. The parameters a model takes as arguments are
elsewhere: PROGRAM is a field of the state (assumption 1) and the UTF-8 decoder an argument of the machine
(Machine/AnyDecoder.lean, assumption 6). The stack has no capacity to configure (rule R21). -/

namespace Sys2Proof

/-- MEM_SIZE of rule R4: the number of data memory cells. -/
def Config.memSize : Nat := 256

/-- INSTR_BYTES of rules R4 and R60: the bytes of one instruction word. -/
def Config.instrBytes : Nat := 4

/-- What a data memory cell holds until something else is stored there: 0, the reset value of every cell (rule R26).
This is what an address not listed in the model's memory reads as (assumption 2). -/
def Config.memReset : Byte := 0

end Sys2Proof
end

