-- ==== Sys2Proof/Machine/State.lean ====
section
/-! DEFINITION. The state of the core as plain data, the reasons a step may stop, and the state after load. -/

namespace Sys2Proof.Machine

/-- The eight register indices (rule R11). -/
inductive Reg where
  | r0 | r1 | r2 | r3
  /-- RAMADDR, the address half of the memory-mapped pair. -/
  | r4
  /-- RAMDATA, the data half of the memory-mapped pair. -/
  | r5
  /-- The reserved register. -/
  | r6
  /-- PC. -/
  | r7
  deriving DecidableEq, Repr

/-- The eight byte-wide slots `regs[0]` to `regs[7]` (rule R10), which are storage: what a program reads and writes goes
through `State.regRead` and `State.regWrite`. -/
structure Slots where
  r0 : Byte
  r1 : Byte
  r2 : Byte
  r3 : Byte
  r4 : Byte
  r5 : Byte
  r6 : Byte
  r7 : Byte
  deriving DecidableEq, Repr

/-- The data memory (rule R22), sparse: the cells that hold something other than `Config.memReset`, by rising address
(assumption 2). `Memory.wf` in Machine/Ops.lean says when the form is canonical. -/
abbrev Memory := List Host.Cell

/-- The events the output unit delivers to the host (rule R156). -/
inductive OutEvent where
  | emit (s : Text)
  | clear
  deriving DecidableEq, Repr

/-- The whole state (10_state.md), with the program (assumption 1) and the output trace (assumption 4). -/
structure State where
  /-- `regs[0..7]`, with `pc` in slot 7 and the shadow of r5 in slot 5 (rules R10, R16, R17). -/
  regs : Slots
  /-- `mem[0..255]` (rule R22). -/
  mem : Memory
  /-- The stack, its top first (rule R21, assumption 3). -/
  stack : List Byte
  /-- The only control state (rule R20). -/
  halted : Bool
  /-- The accumulator of the UTF-8 decoder, its oldest byte first (rule R24). -/
  acc : List Byte
  /-- The output buffer (rule R25). -/
  out : Text
  /-- The output trace: every event since load, in step order (rule R156). -/
  trace : List OutEvent
  /-- PROGRAM (rule R23), written by no instruction. -/
  program : List Byte
  deriving DecidableEq, Repr

/-- The faults of the core: none. It raises no exception and has no abort path (rule R170), and no address is out of
range (rule R41), so the type is empty (assumption 26). -/
inductive Fault where
  deriving DecidableEq, Repr

/-- The refusals. -/
inductive Refusal where
  /-- An instruction the model gives no meaning, raised by an arm of `exec` that rejects it by name. Safe: the model stops
  where the hardware goes on. No arm raises it (assumption 26). -/
  | notModelled (mnemonic : String)
  deriving DecidableEq, Repr

/-- `Load(bytes)` (rules R190 and R191): PROGRAM fixed, unchecked, and every other piece of state at the reset value of
rule R26. -/
def State.load (bytes : List Byte) : State where
  regs := ⟨0, 0, 0, 0, 0, 0, 0, 0⟩
  mem := []
  stack := []
  halted := false
  acc := []
  out := []
  trace := []
  program := bytes

/-- The machine right after reset, no program placed yet: `Load` of the empty list (rule R190, assumption 1). -/
def State.reset : State := State.load []

end Sys2Proof.Machine
end

