-- ==== Sys2Proof/Machine/Ops.lean ====
section
/-! DEFINITION. The named operations over slots, memory, registers, program counter, stack, `halted` and output that the
meanings share: the primitives of rule R7. The core takes no exception and returns from none (rules R170, R174 and R175),
so there is no operation for either; the nearest thing, entering the terminal state, is `State.halt`. -/

namespace Sys2Proof.Machine

/-- `regs[i]`: the stored byte, with no redirection (rule R10). -/
def Slots.get (r : Slots) : Reg → Byte
  | .r0 => r.r0
  | .r1 => r.r1
  | .r2 => r.r2
  | .r3 => r.r3
  | .r4 => r.r4
  | .r5 => r.r5
  | .r6 => r.r6
  | .r7 => r.r7

/-- `regs[i] <- v`: a raw store into a slot (rule R10). -/
def Slots.set (r : Slots) (i : Reg) (v : Byte) : Slots :=
  match i with
  | .r0 => { r with r0 := v }
  | .r1 => { r with r1 := v }
  | .r2 => { r with r2 := v }
  | .r3 => { r with r3 := v }
  | .r4 => { r with r4 := v }
  | .r5 => { r with r5 := v }
  | .r6 => { r with r6 := v }
  | .r7 => { r with r7 := v }

/-- The byte at an address of the sparse memory. -/
def Memory.read : Memory → Nat → Byte
  | [], _ => Config.memReset
  | (b, v) :: m, a => if a = b then v else Memory.read m a

/-- A cell put in its place by rising address. -/
def Memory.insert : Memory → Nat → Byte → Memory
  | [], a, v => [(a, v)]
  | c :: m, a, v => if a < c.1 then (a, v) :: c :: m else c :: Memory.insert m a v

/-- A byte stored at an address. Storing the reset value drops the cell, so equal memories are equal lists. -/
def Memory.write (m : Memory) (a : Nat) (v : Byte) : Memory :=
  let rest := m.filter (fun c => c.1 != a)
  if v = Config.memReset then rest else Memory.insert rest a v

/-- The canonical form: addresses strictly rising and below `Config.memSize`, no cell at the reset value. -/
def Memory.wf : Memory → Bool
  | [] => true
  | c :: m => decide (c.1 < Config.memSize) && decide (c.2 ≠ Config.memReset) && m.all (fun d => decide (c.1 < d.1))
      && Memory.wf m

/-- `pc`, which is `regs[7]` (rule R17). -/
def State.pc (s : State) : Byte := s.regs.r7

/-- `regs[i] <- v` on the state, with no redirection. -/
def State.setSlot (s : State) (i : Reg) (v : Byte) : State := { s with regs := s.regs.set i v }

/-- `MemRead(addr, 1)` (rule R41). -/
def State.memRead (s : State) (addr : Byte) : Byte := s.mem.read addr.toNat

/-- `MemWrite(addr, 1, v)` (rule R41). -/
def State.memWrite (s : State) (addr v : Byte) : State := { s with mem := s.mem.write addr.toNat v }

/-- `RegRead(i)` (rule R12): index 5 reads the memory cell `regs[4]` addresses. -/
def State.regRead (s : State) : Reg → Byte
  | .r5 => s.memRead s.regs.r4
  | i => s.regs.get i

/-- `RegWrite(i, v)` (rule R13): index 6 drops the write, index 5 stores to memory and leaves the shadow alone
(assumption 14), index 4 reads the shadow back from the new address. -/
def State.regWrite (s : State) (i : Reg) (v : Byte) : State :=
  match i with
  | .r6 => s
  | .r5 => s.memWrite s.regs.r4 v
  | .r4 => (s.setSlot .r4 v).setSlot .r5 ((s.setSlot .r4 v).memRead v)
  | i => s.setSlot i v

/-- `AdvancePC()` (rule R18), from whatever `regs[7]` holds when the instruction's writes are done (assumption 17). -/
def State.advancePC (s : State) : State := s.setSlot .r7 (s.pc + 1)

/-- `pc <- target`, which is `RegWrite(7, target)` (rule R17). -/
def State.jump (s : State) (target : Byte) : State := s.regWrite .r7 target

/-- `Push(v)` (rule R21): it always succeeds (assumption 20). -/
def State.push (s : State) (v : Byte) : State := { s with stack := v :: s.stack }

/-- `Pop()` (rule R21): the top and the state without it, or nothing on an empty stack. -/
def State.pop? (s : State) : Option (Byte × State) :=
  match s.stack with
  | [] => none
  | v :: rest => some (v, { s with stack := rest })

/-- `halted <- true` (rules R20 and R176): nothing else changes. -/
def State.halt (s : State) : State := { s with halted := true }

/-- `Emit(s)` (rule R156): the text joins the buffer and the event the trace. -/
def State.emit (s : State) (text : Text) : State :=
  { s with out := s.out ++ text, trace := s.trace ++ [.emit text] }

/-- `ClearOutput()` (rule R156). -/
def State.clearOutput (s : State) : State := { s with out := [], trace := s.trace ++ [.clear] }

/-- `sext_8(v)` (rule R6): the two's-complement reading of a byte. -/
def sext8 (v : Byte) : Int := if v.toNat < 128 then (v.toNat : Int) else (v.toNat : Int) - 256

end Sys2Proof.Machine
end

