-- ==== Sys2Proof/Machine/Operands.lean ====
section
/-! DEFINITION. The operand forms: a register index byte (rules R14 and R64), an operand fetch (rule R14), and a write to
the register `dest` names. -/

namespace Sys2Proof.Machine

/-- The register a byte names: its low 3 bits, reduced before any special case applies (rules R14 and R64,
assumption 12). -/
def regOf (b : Byte) : Reg :=
  match b.getLsbD 2, b.getLsbD 1, b.getLsbD 0 with
  | false, false, false => .r0
  | false, false, true => .r1
  | false, true, false => .r2
  | false, true, true => .r3
  | true, false, false => .r4
  | true, false, true => .r5
  | true, true, false => .r6
  | true, true, true => .r7

/-- `Operand(f, b)` (rule R14): an immediate byte as it stands, or the register the byte names. It has no side effect. -/
def State.fetch (s : State) : Operand → Byte
  | .imm v => v
  | .reg b => s.regRead (regOf b)

/-- `x[d[2:0]] <- v` and then `AdvancePC()`: the end of every ALU instruction, of MOV, and of POP (rules R90, R131 and
R134). -/
def State.writeDest (s : State) (d v : Byte) : State := (s.regWrite (regOf d) v).advancePC

end Sys2Proof.Machine
end

