-- ==== Sys2Proof/Machine/Alu.lean ====
section
/-! DEFINITION. Class 0, the ALU (40_alu.md). -/

namespace Sys2Proof.Machine

/-- `a` rotated right by `b mod 8` positions (rule R92). -/
def rotateRight (a b : Byte) : Byte :=
  let n := b.toNat % 8
  (a >>> n) ||| (a <<< (8 - n))

/-- `a` rotated left by `b mod 8` positions (rule R96). -/
def rotateLeft (a b : Byte) : Byte :=
  let n := b.toNat % 8
  (a <<< n) ||| (a >>> (8 - n))

/-- The common execution of the class (rule R90): both operands fetched, the result written to `dest`, `pc` advanced. -/
def execAlu (op : Byte → Byte → Byte) (a b : Operand) (d : Byte) (s : State) : Host.Outcome State Fault Refusal :=
  .next (s.writeDest d (op (s.fetch a) (s.fetch b)))

/-- AND (rule R91). -/
def execAnd (a b : Operand) (d : Byte) (s : State) : Host.Outcome State Fault Refusal :=
  execAlu (fun x y => x &&& y) a b d s

/-- ROR (rule R92). -/
def execRor (a b : Operand) (d : Byte) (s : State) : Host.Outcome State Fault Refusal :=
  execAlu rotateRight a b d s

/-- ADD (rule R93). -/
def execAdd (a b : Operand) (d : Byte) (s : State) : Host.Outcome State Fault Refusal :=
  execAlu (fun x y => x + y) a b d s

/-- XOR (rule R94). -/
def execXor (a b : Operand) (d : Byte) (s : State) : Host.Outcome State Fault Refusal :=
  execAlu (fun x y => x ^^^ y) a b d s

/-- OR (rule R95). -/
def execOr (a b : Operand) (d : Byte) (s : State) : Host.Outcome State Fault Refusal :=
  execAlu (fun x y => x ||| y) a b d s

/-- ROL (rule R96). -/
def execRol (a b : Operand) (d : Byte) (s : State) : Host.Outcome State Fault Refusal :=
  execAlu rotateLeft a b d s

/-- SUB (rule R97): operand1 minus operand2. -/
def execSub (a b : Operand) (d : Byte) (s : State) : Host.Outcome State Fault Refusal :=
  execAlu (fun x y => x - y) a b d s

/-- NOT (rule R98): operand2 is ignored, which cannot be told from fetching it (rule R71). -/
def execNot (a : Operand) (d : Byte) (s : State) : Host.Outcome State Fault Refusal :=
  .next (s.writeDest d (~~~(s.fetch a)))

end Sys2Proof.Machine
end

