-- ==== Sys2Proof/Machine/ClassThree.lean ====
section
/-! DEFINITION. Class 3, which has no mnemonic (rule R67). -/

namespace Sys2Proof.Machine

/-- A word of class 3 only advances `pc` (rule R67, assumption 11). -/
def execClass3 (s : State) : Host.Outcome State Fault Refusal :=
  .next s.advancePC

end Sys2Proof.Machine
end

