-- ==== Sys2Proof/Machine/Flags.lean ====
section
/-! DEFINITION. The core has no flags (rule R19), so there is no flag computation. The COND class tests its two fetched
operands in the instruction itself; these are its tests (rules R110 to R118), on unsigned bytes with operand1 on the
left (assumption 13). -/

namespace Sys2Proof.Machine

/-- JMP: unconditional true (rule R111). -/
def testJmp : Bool := true

/-- JNE: not equal (rule R112). -/
def testJne (a b : Byte) : Bool := decide (a ≠ b)

/-- JGE: greater or equal (rule R113). -/
def testJge (a b : Byte) : Bool := decide (a.toNat ≥ b.toNat)

/-- JGT: greater (rule R114). -/
def testJgt (a b : Byte) : Bool := decide (a.toNat > b.toNat)

/-- NOP: unconditional false (rule R115). -/
def testNop : Bool := false

/-- JEQ: equal (rule R116). -/
def testJeq (a b : Byte) : Bool := decide (a = b)

/-- JLT: less (rule R117). -/
def testJlt (a b : Byte) : Bool := decide (a.toNat < b.toNat)

/-- JLE: less or equal (rule R118). -/
def testJle (a b : Byte) : Bool := decide (a.toNat ≤ b.toNat)

end Sys2Proof.Machine
end

