-- ==== Sys2Proof/Machine/Cond.lean ====
section
/-! DEFINITION. Class 1, COND (41_cond.md). -/

namespace Sys2Proof.Machine

/-- The common execution of the class (rule R110): the target byte into `pc` when the test holds, else `pc` advanced. The
write goes to index 7 with the byte itself (assumption 27). -/
def State.branch (s : State) (taken : Bool) (target : Byte) : State :=
  match taken with
  | true => s.jump target
  | false => s.advancePC

/-- JMP (rule R111). -/
def execJmp (t : Byte) (s : State) : Host.Outcome State Fault Refusal :=
  .next (s.branch testJmp t)

/-- JNE (rule R112). -/
def execJne (a b : Operand) (t : Byte) (s : State) : Host.Outcome State Fault Refusal :=
  .next (s.branch (testJne (s.fetch a) (s.fetch b)) t)

/-- JGE (rule R113). -/
def execJge (a b : Operand) (t : Byte) (s : State) : Host.Outcome State Fault Refusal :=
  .next (s.branch (testJge (s.fetch a) (s.fetch b)) t)

/-- JGT (rule R114). -/
def execJgt (a b : Operand) (t : Byte) (s : State) : Host.Outcome State Fault Refusal :=
  .next (s.branch (testJgt (s.fetch a) (s.fetch b)) t)

/-- NOP (rule R115): the test is false, so the target never matters. -/
def execNop (s : State) : Host.Outcome State Fault Refusal :=
  .next (s.branch testNop 0)

/-- JEQ (rule R116). -/
def execJeq (a b : Operand) (t : Byte) (s : State) : Host.Outcome State Fault Refusal :=
  .next (s.branch (testJeq (s.fetch a) (s.fetch b)) t)

/-- JLT (rule R117). -/
def execJlt (a b : Operand) (t : Byte) (s : State) : Host.Outcome State Fault Refusal :=
  .next (s.branch (testJlt (s.fetch a) (s.fetch b)) t)

/-- JLE (rule R118). -/
def execJle (a b : Operand) (t : Byte) (s : State) : Host.Outcome State Fault Refusal :=
  .next (s.branch (testJle (s.fetch a) (s.fetch b)) t)

end Sys2Proof.Machine
end

