-- ==== Sys2Proof/Machine/Io.lean ====
section
/-! DEFINITION. Class 2, IO, without WRT (42_io.md). -/

namespace Sys2Proof.Machine

/-- MOV (rule R131): the load and the store of this machine. -/
def execMov (a : Operand) (d : Byte) (s : State) : Host.Outcome State Fault Refusal :=
  .next (s.writeDest d (s.fetch a))

/-- The exchange of two raw slots, nothing when either is the reserved register (rule R132). -/
def State.swapSlots (s : State) (i j : Reg) : State :=
  if i = .r6 ∨ j = .r6 then s
  else (s.setSlot i (s.regs.get j)).setSlot j (s.regs.get i)

/-- SWAP (rule R132): the low 3 bits of both operand bytes, and `pc` advances even when nothing is exchanged
(assumption 15). -/
def execSwap (i j : Byte) (s : State) : Host.Outcome State Fault Refusal :=
  .next (s.swapSlots (regOf i) (regOf j)).advancePC

/-- PUSH (rule R133). -/
def execPush (a : Operand) (s : State) : Host.Outcome State Fault Refusal :=
  .next (s.push (s.fetch a)).advancePC

/-- POP (rule R134): on an empty stack only `pc` advances. -/
def execPop (d : Byte) (s : State) : Host.Outcome State Fault Refusal :=
  match s.pop? with
  | none => .next s.advancePC
  | some (v, s) => .next (s.writeDest d v)

/-- CALL (rule R135): the pushed byte is this instruction's own word index, and `pc` does not advance. -/
def execCall (a : Operand) (s : State) : Host.Outcome State Fault Refusal :=
  .next ((s.push s.pc).jump (s.fetch a))

/-- JRE (rule R136): `pc` plus the signed reading of slot 0, reduced mod 256, with no advance. -/
def execJre (s : State) : Host.Outcome State Fault Refusal :=
  .next (s.jump (BitVec.ofInt 8 ((s.pc.toNat : Int) + sext8 s.regs.r0)))

/-- HCF (rule R137): `pc` keeps this instruction's own word index (assumption 19). -/
def execHcf (s : State) : Host.Outcome State Fault Refusal :=
  .next s.halt

end Sys2Proof.Machine
end

