-- ==== Sys2Proof/Machine/Output.lean ====
section
/-! DEFINITION. WRT and the streaming text output unit (43_wrt_output.md). -/

namespace Sys2Proof.Machine

/-- `lo ≤ b ≤ hi`. -/
def inRange (lo hi : Nat) (b : Byte) : Bool := decide (lo ≤ b.toNat) && decide (b.toNat ≤ hi)

/-- A continuation byte, 80 to BF (rule R152). -/
def isCont (b : Byte) : Bool := inRange 0x80 0xBF b

/-- The low 6 bits of a continuation byte. -/
def contBits (b : Byte) : Nat := b.toNat % 64

/-- The one-byte row of the table of rule R152. -/
def scalar1 (b1 : Byte) : Option Scalar :=
  if inRange 0x00 0x7F b1 then some b1.toNat else none

/-- The two-byte row. -/
def scalar2 (b1 b2 : Byte) : Option Scalar :=
  if inRange 0xC2 0xDF b1 && isCont b2 then some (b1.toNat % 32 * 64 + contBits b2) else none

/-- Which second bytes the three-byte rows admit after a first byte. -/
def second3 (b1 b2 : Byte) : Bool :=
  (inRange 0xE0 0xE0 b1 && inRange 0xA0 0xBF b2)
    || (inRange 0xE1 0xEC b1 && isCont b2)
    || (inRange 0xED 0xED b1 && inRange 0x80 0x9F b2)
    || (inRange 0xEE 0xEF b1 && isCont b2)

/-- The three-byte rows. -/
def scalar3 (b1 b2 b3 : Byte) : Option Scalar :=
  if second3 b1 b2 && isCont b3 then some (b1.toNat % 16 * 4096 + contBits b2 * 64 + contBits b3) else none

/-- Which second bytes the four-byte rows admit after a first byte. -/
def second4 (b1 b2 : Byte) : Bool :=
  (inRange 0xF0 0xF0 b1 && inRange 0x90 0xBF b2)
    || (inRange 0xF1 0xF3 b1 && isCont b2)
    || (inRange 0xF4 0xF4 b1 && inRange 0x80 0x8F b2)

/-- The four-byte rows. -/
def scalar4 (b1 b2 b3 b4 : Byte) : Option Scalar :=
  if second4 b1 b2 && isCont b3 && isCont b4 then
    some (b1.toNat % 8 * 262144 + contBits b2 * 4096 + contBits b3 * 64 + contBits b4)
  else none

/-- The scalars of a byte list that is a concatenation of well-formed sequences, each read by the row its first byte
selects. -/
def scalarsOf : List Byte → Option Text
  | [] => some []
  | b1 :: t1 =>
    match scalar1 b1 with
    | some c => (scalarsOf t1).map (c :: ·)
    | none =>
      match t1 with
      | [] => none
      | b2 :: t2 =>
        match scalar2 b1 b2 with
        | some c => (scalarsOf t2).map (c :: ·)
        | none =>
          match t2 with
          | [] => none
          | b3 :: t3 =>
            match scalar3 b1 b2 b3 with
            | some c => (scalarsOf t3).map (c :: ·)
            | none =>
              match t3 with
              | [] => none
              | b4 :: t4 =>
                match scalar4 b1 b2 b3 b4 with
                | some c => (scalarsOf t4).map (c :: ·)
                | none => none

/-- `Utf8Decode`, the default of rule R152: the whole of a non-empty byte list as well-formed UTF-8, or nothing
(assumption 6). -/
def utf8Decode : List Byte → Option Text
  | [] => none
  | b :: bs => scalarsOf (b :: bs)

/-- `WriteUtf8(v)` (rule R151) for whatever decoder the model takes: rule R4 makes it a parameter. DESIGN CHOICE
(assumption 32): rule R156 defines `Emit(s)` for a non-empty text only, and a decoder other than the default may answer the
empty text; here that answer is a success like any other, which clears the accumulator and delivers the event of the empty
text. -/
def writeUtf8With (decoder : List Byte → Option Text) (v : Byte) (s : State) : State :=
  if v = 0 then ({ s with acc := [] } : State).clearOutput
  else
    match decoder (s.acc ++ [v]) with
    | some text => { s.emit text with acc := [] }
    | none => { s with acc := s.acc ++ [v] }

/-- `WriteUtf8(v)` with the default decoder. -/
def writeUtf8 (v : Byte) (s : State) : State := writeUtf8With utf8Decode v s

/-- `"?"`, U+003F (rule R153, assumption 7). -/
def questionMark : Scalar := 0x3F

/-- `DecDigit(v)` (rule R153). -/
def decDigit (v : Byte) : Text := [if v.toNat ≤ 9 then 0x30 + v.toNat else questionMark]

/-- `Letter(v)` (rule R154). -/
def letter (v : Byte) : Text := [if v.toNat ≤ 25 then 0x41 + v.toNat else questionMark]

/-- `HexDigit(v)` (rule R155), upper case (assumption 7). -/
def hexDigit (v : Byte) : Text :=
  [if v.toNat ≤ 9 then 0x30 + v.toNat else if v.toNat ≤ 15 then 0x41 + (v.toNat - 10) else questionMark]

/-- One unit of output in the format the low 2 bits of the selector name (rule R150), for whatever decoder the model takes.
Formats 1 to 3 leave the accumulator alone (assumption 18). -/
def State.writeWith (decoder : List Byte → Option Text) (s : State) (v selector : Byte) : State :=
  match selector.getLsbD 1, selector.getLsbD 0 with
  | false, false => writeUtf8With decoder v s
  | false, true => s.emit (decDigit v)
  | true, false => s.emit (letter v)
  | true, true => s.emit (hexDigit v)

/-- One unit of output with the default decoder. -/
def State.write (s : State) (v selector : Byte) : State := s.writeWith utf8Decode v selector

/-- WRT (rule R150) for whatever decoder the model takes: the selector is fetched like any operand (assumption 16). -/
def execWrtWith (decoder : List Byte → Option Text) (a f : Operand) (s : State) : Host.Outcome State Fault Refusal :=
  .next (s.writeWith decoder (s.fetch a) (s.fetch f)).advancePC

/-- WRT (rule R150) with the default decoder of rule R152. -/
def execWrt (a f : Operand) (s : State) : Host.Outcome State Fault Refusal := execWrtWith utf8Decode a f s

end Sys2Proof.Machine
end

