-- ==== Sys2Proof/Machine/Dispatch.lean ====
section
/-! DEFINITION. The dispatch: one arm per instruction, one direct call of its meaning. -/

namespace Sys2Proof.Machine

def exec (i : Instr) (s : State) : Host.Outcome State Fault Refusal :=
  match i with
  | .and a b d => Sys2Proof.Machine.execAnd a b d s
  | .ror a b d => Sys2Proof.Machine.execRor a b d s
  | .add a b d => Sys2Proof.Machine.execAdd a b d s
  | .xor a b d => Sys2Proof.Machine.execXor a b d s
  | .or a b d => Sys2Proof.Machine.execOr a b d s
  | .rol a b d => Sys2Proof.Machine.execRol a b d s
  | .sub a b d => Sys2Proof.Machine.execSub a b d s
  | .not a d => Sys2Proof.Machine.execNot a d s
  | .jmp t => Sys2Proof.Machine.execJmp t s
  | .jne a b t => Sys2Proof.Machine.execJne a b t s
  | .jge a b t => Sys2Proof.Machine.execJge a b t s
  | .jgt a b t => Sys2Proof.Machine.execJgt a b t s
  | .nop => Sys2Proof.Machine.execNop s
  | .jeq a b t => Sys2Proof.Machine.execJeq a b t s
  | .jlt a b t => Sys2Proof.Machine.execJlt a b t s
  | .jle a b t => Sys2Proof.Machine.execJle a b t s
  | .mov a d => Sys2Proof.Machine.execMov a d s
  | .swap i1 i2 => Sys2Proof.Machine.execSwap i1 i2 s
  | .push a => Sys2Proof.Machine.execPush a s
  | .pop d => Sys2Proof.Machine.execPop d s
  | .wrt a f => Sys2Proof.Machine.execWrt a f s
  | .call a => Sys2Proof.Machine.execCall a s
  | .jre => Sys2Proof.Machine.execJre s
  | .hcf => Sys2Proof.Machine.execHcf s
  | .class3 => Sys2Proof.Machine.execClass3 s

end Sys2Proof.Machine
end

