-- ==== Sys2Proof/Machine/Fetch.lean ====
section
/-! DEFINITION. Fetching an instruction word (rule R68), the step around what executes it (rule R69), and placing a word
where it is fetched. -/

namespace Sys2Proof.Machine

/-- `FetchWord(pc)` (rule R68): the four program bytes at `4 * pc`, or nothing when the slice would exceed the program. A
trailing partial word is never fetched (assumption 21). -/
def fetchWord (program : List Byte) (pc : Byte) : Option InstrWord :=
  match program.drop (Config.instrBytes * pc.toNat) with
  | op :: o1 :: o2 :: d :: _ => some ⟨op, o1, o2, d⟩
  | _ => none

/-- `Step()` (rule R69) around what executes an instruction: nothing on a halted core; a failed fetch halts and changes
nothing else; otherwise the word at `pc` is decoded and executed (assumption 19). -/
def stepBy (execute : Instr → State → Host.Outcome State Fault Refusal) (s : State) :
    Host.Outcome State Fault Refusal :=
  match s.halted with
  | true => .next s
  | false =>
    match fetchWord s.program s.pc with
    | none => .next s.halt
    | some w => execute (decodeWord w) s

/-- The program with a word's bytes stored at word index `pc`, the bytes before it kept and made up with zeros where the
program is shorter (assumption 1). -/
def placeWord (program : List Byte) (pc : Byte) (w : InstrWord) : List Byte :=
  let at0 := Config.instrBytes * pc.toNat
  program.take at0 ++ List.replicate (at0 - program.length) 0 ++ w.bytes
    ++ program.drop (at0 + Config.instrBytes)

end Sys2Proof.Machine
end

