-- ==== Sys2Proof/Machine/Step.lean ====
section
/-! DEFINITION. One step (rule R69). -/

namespace Sys2Proof.Machine

/-- `Step()` (rule R69) of the machine with the default decoder. -/
def step (s : State) : Host.Outcome State Fault Refusal := stepBy exec s

/-- The state with an instruction, numbered as spec/opcode_table.json numbers it, placed in the program at the word index
in `pc`, and running: what a load of such a program gives (rule R190, assumptions 1 and 22). -/
def State.withFetchWord (s : State) (nbits w : Nat) : State :=
  { s with program := placeWord s.program s.pc (tableWord nbits w), halted := false }

end Sys2Proof.Machine
end

