-- ==== Sys2Proof/Machine/HostView.lean ====
section
/-! DEFINITION. What the host can see and do besides `Load` and `Step` (rules R27, R193 and R197). The output events are
the state's trace. -/

namespace Sys2Proof.Machine

/-- What the machine exposes after each step (rule R27): the slots as stored, every memory cell, the stack bottom first,
and `halted`. The accumulator is not in it. -/
structure HostView where
  regs : List Byte
  mem : List Byte
  stack : List Byte
  halted : Bool
  deriving DecidableEq, Repr

/-- Reading the exposed state, which changes nothing (rule R181). -/
def State.observe (s : State) : HostView where
  regs := [s.regs.r0, s.regs.r1, s.regs.r2, s.regs.r3, s.regs.r4, s.regs.r5, s.regs.r6, s.regs.r7]
  mem := (List.range Config.memSize).map s.mem.read
  stack := s.stack.reverse
  halted := s.halted

/-- A step repeated `n` times (rule R193). -/
def stepNBy (step : State → Host.Outcome State Fault Refusal) : Nat → State → Host.Outcome State Fault Refusal
  | 0, s => .next s
  | n + 1, s =>
    match step s with
    | .next t => stepNBy step n t
    | .fault r => .fault r
    | .refused r => .refused r

/-- `Run()` under a step cap (rule R197): step until halted, at most `n` times. -/
def runCappedBy (step : State → Host.Outcome State Fault Refusal) : Nat → State → Host.Outcome State Fault Refusal
  | 0, s => .next s
  | n + 1, s =>
    match s.halted with
    | true => .next s
    | false =>
      match step s with
      | .next t => runCappedBy step n t
      | .fault r => .fault r
      | .refused r => .refused r

/-- `Step()` repeated `n` times. -/
def stepN (n : Nat) (s : State) : Host.Outcome State Fault Refusal := stepNBy step n s

/-- `Run()` under a cap of `n` steps. -/
def runCapped (n : Nat) (s : State) : Host.Outcome State Fault Refusal := runCappedBy step n s

end Sys2Proof.Machine
end

