-- ==== Sys2Proof/Machine/AnyDecoder.lean ====
section
/-! DEFINITION. The machine for whatever `Utf8Decode` the model takes: rule R4 makes the decoder an argument of the model, of
which rule R152 gives the default. `exec`, `step`, `stepN`, `runCapped` and `Sys2Proof.core` are these at `utf8Decode`
(assumption 6). -/

namespace Sys2Proof.Machine

/-- The meaning of an instruction under a decoder: only WRT has one to hand the decoder to (rules R150 and R151). -/
def execWith (decoder : List Byte → Option Text) (i : Instr) (s : State) : Host.Outcome State Fault Refusal :=
  match i with
  | .wrt a f => execWrtWith decoder a f s
  | .and _ _ _ | .ror _ _ _ | .add _ _ _ | .xor _ _ _ | .or _ _ _ | .rol _ _ _ | .sub _ _ _ | .not _ _
  | .jmp _ | .jne _ _ _ | .jge _ _ _ | .jgt _ _ _ | .nop | .jeq _ _ _ | .jlt _ _ _ | .jle _ _ _
  | .mov _ _ | .swap _ _ | .push _ | .pop _ | .call _ | .jre | .hcf | .class3 => exec i s

/-- `Step()` (rule R69) under a decoder. -/
def stepWith (decoder : List Byte → Option Text) (s : State) : Host.Outcome State Fault Refusal :=
  stepBy (execWith decoder) s

/-- `Step()` repeated under a decoder (rule R193). -/
def stepNWith (decoder : List Byte → Option Text) (n : Nat) (s : State) : Host.Outcome State Fault Refusal :=
  stepNBy (stepWith decoder) n s

/-- `Run()` under a decoder and a step cap (rule R197). -/
def runCappedWith (decoder : List Byte → Option Text) (n : Nat) (s : State) : Host.Outcome State Fault Refusal :=
  runCappedBy (stepWith decoder) n s

/-- The machine under a decoder, behind the host's interface. -/
def coreWith (decoder : List Byte → Option Text) : Host.Core where
  State := State
  Fault := Fault
  Refusal := Refusal
  step := stepWith decoder
  reset := State.reset

end Sys2Proof.Machine
end

