-- ==== Sys2Proof/Machine/Assembler.lean ====
section
/-! DEFINITION. The assembler's source language (rules R73 to R84): toolchain, not hardware. The core knows nothing of it
and no other file of the model uses it; it reads and writes the programs of the spec. What the rules leave open is
settled in assumption 31. -/

namespace Sys2Proof.Asm

/-- A token of a source line. -/
abbrev Token := List Char

/-- What an operand resolves to (rules R74 and R79): a register's index or a literal byte. -/
inductive Value where
  | register (index : Byte)
  | literal (value : Byte)
  deriving DecidableEq, Repr

/-- The four assembly errors (rule R81), and the forms outside the admitted source language (rule R78). -/
inductive ErrorKind where
  | unknownMnemonic
  | badValue
  | undefinedLabel (name : Token) (instruction : Nat)
  | uppercaseRegister
  | notAdmitted
  deriving DecidableEq, Repr

/-- An error with the 1-based number and the raw text of its line (rule R81). -/
structure AsmError where
  line : Nat
  raw : List Char
  kind : ErrorKind
  deriving DecidableEq, Repr

/-- The text cut at line ends. DESIGN CHOICE (assumption 31): rule R73 calls the source line-oriented and names no line end;
here a line feed alone ends a line, and the text after a final line feed, though empty, is one more line with its own entry in
the map of rule R84. -/
def splitLines : List Char → List (List Char)
  | [] => [[]]
  | c :: cs =>
    match decide (c = '\n'), splitLines cs with
    | true, ls => [] :: ls
    | false, [] => [[c]]
    | false, l :: ls => (c :: l) :: ls

/-- A comma or white space. DESIGN CHOICE (assumption 31): rule R73 names commas and white space and lists no characters; here
white space is the space, the tab and the carriage return, and any other character belongs to a token. -/
def isSeparator (c : Char) : Bool := c = ',' || c = ' ' || c = '\t' || c = '\r'

/-- The tokens of a text, each with the text that follows it, given the characters of the token being read. DESIGN CHOICE
(assumption 31): rule R73 tokenizes on commas and white space and does not say what stands between two commas or outside them;
here there is no empty token, so `MOV 5,,r0`, `MOV ,5,r0` and `MOV 5,r0,` are `MOV 5,r0`. -/
def tokensFrom : List Char → Token → List (Token × List Char)
  | [], [] => []
  | [], t => [(t, [])]
  | c :: cs, t =>
    match isSeparator c, t with
    | true, [] => tokensFrom cs []
    | true, t => (t, c :: cs) :: tokensFrom cs []
    | false, t => tokensFrom cs (t ++ [c])

/-- What follows the last colon of a token, or the token itself. -/
def afterColons : Token → Token
  | [] => []
  | c :: cs => if cs.any (· = ':') then afterColons cs else if c = ':' then cs else c :: cs

/-- A line's tokens without leading `name:` marks, which bind nothing (rule R75). -/
def stripMarks : List (Token × List Char) → List (Token × List Char)
  | [] => []
  | (t, after) :: ts =>
    match afterColons t with
    | [] => stripMarks ts
    | u => (u, after) :: ts

/-- A line's tokens, each with the text that follows it: `;` begins a comment, commas and white space separate (rule R73). -/
def lineItems (raw : List Char) : List (Token × List Char) := stripMarks (tokensFrom (raw.takeWhile (· ≠ ';')) [])

/-- Tokenizing a line (rule R73). -/
def lineTokens (raw : List Char) : List Token := (lineItems raw).map Prod.fst

/-- A text without the separators around it. -/
def trim (cs : List Char) : List Char := ((cs.dropWhile isSeparator).reverse.dropWhile isSeparator).reverse

/-- The value of a digit in a base, if it is one. -/
def digitValue (base : Nat) (c : Char) : Option Nat :=
  let v :=
    if 48 ≤ c.toNat ∧ c.toNat ≤ 57 then c.toNat - 48
    else if 97 ≤ c.toNat ∧ c.toNat ≤ 102 then c.toNat - 87
    else if 65 ≤ c.toNat ∧ c.toNat ≤ 70 then c.toNat - 55
    else base
  if v < base then some v else none

/-- A digit sequence after what has been read so far. -/
def digitsFrom (base : Nat) : Nat → List Char → Option Nat
  | n, [] => some n
  | n, c :: cs =>
    match digitValue base c with
    | some v => digitsFrom base (n * base + v) cs
    | none => none

/-- A non-empty digit sequence, masked to 8 bits. -/
def number (base : Nat) : List Char → Option Byte
  | [] => none
  | c :: cs => (digitsFrom base 0 (c :: cs)).map (BitVec.ofNat 8)

/-- A single or double quotation mark. -/
def isQuote (c : Char) : Bool := c.toNat = 39 || c.toNat = 34

/-- The value grammar (rule R77): a quoted character, hexadecimal, binary or decimal, masked to 8 bits. -/
def literal (t : Token) : Option Byte :=
  match t with
  | '0' :: 'x' :: ds => number 16 ds
  | '0' :: 'b' :: ds => number 2 ds
  | [q, c, q'] => if isQuote q ∧ q' = q then some (BitVec.ofNat 8 c.toNat) else number 10 t
  | _ => number 10 t

/-- The register names and their indices (rule R76). -/
def registerNames : List (Token × Byte) :=
  [("r0".toList, 0), ("r1".toList, 1), ("r2".toList, 2), ("r3".toList, 3), ("r4".toList, 4), ("r5".toList, 5),
   ("r6".toList, 6), ("r7".toList, 7), ("RAMADDR".toList, 4), ("RAMDATA".toList, 5), ("PC".toList, 7)]

/-- The names rejected with an error of their own (rule R76). -/
def uppercaseNames : List Token :=
  ["R0".toList, "R1".toList, "R2".toList, "R3".toList, "R4".toList, "R5".toList, "R6".toList, "R7".toList]

/-- A register name or a literal. -/
def registerOrLiteral (t : Token) : Except ErrorKind Value :=
  match registerNames.lookup t with
  | some i => .ok (.register i)
  | none =>
    if t ∈ uppercaseNames then .error .uppercaseRegister
    else
      match literal t with
      | some v => .ok (.literal v)
      | none => .error .badValue

/-- The names, classes and subtypes of the 24 mnemonics (rule R66). -/
def mnemonics : List (Token × BitVec 2 × BitVec 3) :=
  [("AND".toList, 0, 0), ("ROR".toList, 0, 1), ("ADD".toList, 0, 2), ("XOR".toList, 0, 3),
   ("OR".toList, 0, 4), ("ROL".toList, 0, 5), ("SUB".toList, 0, 6), ("NOT".toList, 0, 7),
   ("JMP".toList, 1, 0), ("JNE".toList, 1, 1), ("JGE".toList, 1, 2), ("JGT".toList, 1, 3),
   ("NOP".toList, 1, 4), ("JEQ".toList, 1, 5), ("JLT".toList, 1, 6), ("JLE".toList, 1, 7),
   ("MOV".toList, 2, 0), ("SWAP".toList, 2, 1), ("PUSH".toList, 2, 2), ("POP".toList, 2, 3),
   ("WRT".toList, 2, 4), ("CALL".toList, 2, 5), ("JRE".toList, 2, 6), ("HCF".toList, 2, 7)]

/-- An operand of a line in its full form: written in the source, or the literal `0` a short form supplies (rule R78). -/
inductive LineOperand where
  | written (t : Token)
  | suppliedZero
  deriving DecidableEq, Repr

/-- The three operands of a line, the shorthand forms expanded (rule R78). -/
def threeOperands (mnemonic : Token) (operands : List Token) : Option (LineOperand × LineOperand × LineOperand) :=
  match operands with
  | [a, b, d] => some (.written a, .written b, .written d)
  | [a, d] =>
    if mnemonic = "MOV".toList then some (.written a, .suppliedZero, .written d)
    else if mnemonic = "WRT".toList then some (.written a, .written d, .suppliedZero)
    else none
  | [a] =>
    if mnemonic = "PUSH".toList ∨ mnemonic = "CALL".toList then some (.written a, .suppliedZero, .suppliedZero)
    else if mnemonic = "JMP".toList ∨ mnemonic = "POP".toList then some (.suppliedZero, .suppliedZero, .written a)
    else none
  | [] =>
    if mnemonic = "HCF".toList ∨ mnemonic = "JRE".toList ∨ mnemonic = "NOP".toList then
      some (.suppliedZero, .suppliedZero, .suppliedZero)
    else none
  | _ => none

/-- The slots of a word an operand can stand in. -/
inductive WordSlot where
  | operand1 | operand2 | dest
  deriving DecidableEq, Repr

/-- A deferred forward reference (rule R76), with the line it stands on. -/
structure ForwardRef where
  instruction : Nat
  slot : WordSlot
  name : Token
  line : Nat
  raw : List Char
  deriving DecidableEq, Repr

/-- What the encode pass has built: words in order, labels latest first, the forward references, and the line map of
rule R84. -/
structure Pass where
  words : List InstrWord
  labels : List (Token × Nat)
  forwards : List ForwardRef
  lineMap : List Nat
  deriving DecidableEq, Repr

/-- The word index of the next instruction line. -/
def Pass.pc (p : Pass) : Nat := p.words.length

/-- What a token in a slot resolves to, with the name of the label if it is a forward reference (rule R76): a label already
seen, a forward reference with placeholder 0, a constant, then a register name or a literal. -/
def resolve (constants : List (Token × Value)) (p : Pass) (t : Token) : Except ErrorKind (Value × Option Token) :=
  match p.labels.lookup t with
  | some pc => .ok (.literal (BitVec.ofNat 8 pc), none)
  | none =>
    if t.head? = some '$' then .ok (.literal 0, some t)
    else
      match constants.lookup t with
      | some v => .ok (v, none)
      | none => (registerOrLiteral t).map (·, none)

/-- What an operand of a line resolves to. A supplied `0` is a literal whatever the constants are, so that its flag is set
(rule R78). -/
def LineOperand.resolve (constants : List (Token × Value)) (p : Pass) :
    LineOperand → Except ErrorKind (Value × Option Token)
  | .written t => Asm.resolve constants p t
  | .suppliedZero => .ok (.literal 0, none)

/-- The immediate flag of a resolved operand (rule R79). -/
def Value.flag : Value → Bool
  | .register _ => false
  | .literal _ => true

/-- The byte of a resolved operand (rule R79). -/
def Value.byte : Value → Byte
  | .register i => i
  | .literal v => v

/-- The word of a line with its operands resolved (rule R79): the third slot has no flag. -/
def encodeResolved (cls : BitVec 2) (sub : BitVec 3) (a b d : Value) : InstrWord :=
  ⟨opcodeByte a.flag b.flag cls sub, a.byte, b.byte, d.byte⟩

/-- The forward reference of a slot, if its operand is one. -/
def forwardOf (p : Pass) (line : Nat) (raw : List Char) (slot : WordSlot) : Option Token → List ForwardRef
  | some name => [⟨p.pc, slot, name, line, raw⟩]
  | none => []

/-- One instruction line (rules R73, R78 and R79). -/
def encodeInstruction (constants : List (Token × Value)) (p : Pass) (line : Nat) (raw : List Char)
    (mnemonic : Token) (operands : List Token) : Except ErrorKind Pass := do
  match mnemonics.lookup mnemonic with
  | none => throw .unknownMnemonic
  | some (cls, sub) =>
    match threeOperands mnemonic operands with
    | none => throw .notAdmitted
    | some (oa, ob, od) =>
      let (a, fa) ← oa.resolve constants p
      let (b, fb) ← ob.resolve constants p
      let (d, fd) ← od.resolve constants p
      return { p with
        words := p.words ++ [encodeResolved cls sub a b d]
        forwards := p.forwards ++ forwardOf p line raw .operand1 fa ++ forwardOf p line raw .operand2 fb
          ++ forwardOf p line raw .dest fd }

/-- A token in upper case (rule R73). -/
def upper (t : Token) : Token := t.map Char.toUpper

/-- One line of the encode pass: constants and blank lines emit nothing, `LABEL $NAME` records the word index, anything
else is an instruction line (rules R73 to R75). DESIGN CHOICE (assumption 31): a line of
commas alone is not blank and yet has no token; rule R73 says neither that it is dropped nor that it is an error, and here it is
treated as a blank line. A line that is no instruction maps to the word index of the next one, as rule R84
says of blank, comment and label lines and not of `define` lines; after the last instruction, where there is no next one and
rule R84 is silent, it maps to the number of words. -/
def encodeLine (constants : List (Token × Value)) (p : Pass) (line : Nat) (raw : List Char) : Except ErrorKind Pass :=
  let q := { p with lineMap := p.lineMap ++ [p.pc] }
  match lineTokens raw with
  | [] => .ok q
  | m :: ts =>
    if m = "define".toList then .ok q
    else
      match decide (upper m = "LABEL".toList), ts with
      | true, [name] =>
        if name.head? = some '$' then .ok { q with labels := (name, p.pc) :: q.labels } else .error .unknownMnemonic
      | _, ts => encodeInstruction constants q line raw (upper m) ts

/-- An error placed on its line (rule R81). -/
def onLine {α : Type} (line : Nat) (raw : List Char) : Except ErrorKind α → Except AsmError α
  | .ok a => .ok a
  | .error k => .error ⟨line, raw, k⟩

/-- The encode pass over the lines, numbered from `line`; the first error stops it. -/
def encodeLines (constants : List (Token × Value)) : Nat → List (List Char) → Pass → Except AsmError Pass
  | _, [], p => .ok p
  | line, raw :: rest, p =>
    match onLine line raw (encodeLine constants p line raw) with
    | .ok q => encodeLines constants (line + 1) rest q
    | .error e => .error e

/-- The constant a line defines, if it is a `define` line (rule R74): a name, and the whole text after it as the body, which the
value grammar evaluates (rule R77), so that a quoted space or comma is a body. DESIGN CHOICE (assumption 31): the spec gives no
splitting for these lines; here the name ends at white space or a comma, those around the body are dropped, and a line without
a name or a body is outside the admitted language. -/
def defineOf (raw : List Char) : Except ErrorKind (List (Token × Value)) :=
  match lineItems raw with
  | (m, _) :: items =>
    if m = "define".toList then
      match items with
      | (name, after) :: _ :: _ => (registerOrLiteral (trim after)).map (fun v => [(name, v)])
      | _ => .error .notAdmitted
    else .ok []
  | [] => .ok []

/-- The first pass: every `define` line of the file, the latest first (rule R74). -/
def constantsOf : Nat → List (List Char) → List (Token × Value) → Except AsmError (List (Token × Value))
  | _, [], cs => .ok cs
  | line, raw :: rest, cs =>
    match onLine line raw (defineOf raw) with
    | .ok found => constantsOf (line + 1) rest (found ++ cs)
    | .error e => .error e

/-- A byte written into a slot of a word. -/
def patchWord (slot : WordSlot) (v : Byte) (w : InstrWord) : InstrWord :=
  match slot with
  | .operand1 => { w with operand1 := v }
  | .operand2 => { w with operand2 := v }
  | .dest => { w with dest := v }

/-- The patch step (rule R80): each placeholder overwritten with its label's word index, masked to 8 bits. -/
def patchAll (labels : List (Token × Nat)) : List ForwardRef → List InstrWord → Except AsmError (List InstrWord)
  | [], ws => .ok ws
  | f :: fs, ws =>
    match labels.lookup f.name with
    | some pc => patchAll labels fs (ws.modify f.instruction (patchWord f.slot (BitVec.ofNat 8 pc)))
    | none => .error ⟨f.line, f.raw, .undefinedLabel f.name f.instruction⟩

/-- What assembly returns: the program's bytes (rule R83) and the map from line index to word index (rule R84). -/
structure Output where
  bytes : List Byte
  lineMap : List Nat
  deriving DecidableEq, Repr

/-- Assembling a source text: all or nothing (rule R81). -/
def assemble (source : String) : Except AsmError Output :=
  let lines := splitLines source.toList
  match constantsOf 1 lines [] with
  | .error e => .error e
  | .ok constants =>
    match encodeLines constants 1 lines ⟨[], [], [], []⟩ with
    | .error e => .error e
    | .ok p =>
      match patchAll p.labels p.forwards p.words with
      | .error e => .error e
      | .ok ws => .ok ⟨ws.flatMap InstrWord.bytes, p.lineMap⟩

end Sys2Proof.Asm
end

