-- ==== Sys2Proof/Safety.lean ====
section
/-! DEFINITION. The terms the statements use: the safe outcome of a step, the invariant of the core, what a register write
followed by the advance leaves, which instructions write what, and the UTF-8 table of rule R152 as a relation. -/

namespace Sys2Proof.Machine

/-- A step is safe when it goes on. By rule R170 every step of this hardware is. -/
def Safe (o : Host.Outcome State Fault Refusal) : Prop := ∃ t, o = .next t

/-- A Unicode scalar value: a code point that is no surrogate (rule R152). -/
def IsScalar (c : Nat) : Prop := c < 0xD800 ∨ (0xE000 ≤ c ∧ c ≤ 0x10FFFF)

/-- What one event does to the text seen so far. -/
def OutEvent.apply (text : Text) : OutEvent → Text
  | .emit s => text ++ s
  | .clear => []

/-- The concatenation of the Emit texts since the last Clear (rule R156). -/
def visibleText (trace : List OutEvent) : Text := trace.foldl OutEvent.apply []

/-- An event the unit may deliver: a Clear, or an Emit of exactly one character (rules R153 to R155 and R157 c). -/
def OutEvent.Ok : OutEvent → Prop
  | .emit s => ∃ c, s = [c] ∧ IsScalar c
  | .clear => True

/-- What holds of the core at load and after every step. -/
structure Inv (s : State) : Prop where
  /-- The memory is in its canonical form (assumption 2). -/
  memCanonical : Memory.wf s.mem = true
  /-- `regs[6] = 0` (rule R15). -/
  reservedZero : s.regs.r6 = 0
  /-- The accumulator never holds a zero byte (rule R24). -/
  accNoZero : ∀ b ∈ s.acc, b ≠ 0
  /-- No beginning of the accumulator decodes: each was tried when it was the whole (rule R157 c). -/
  accPending : ∀ p q, s.acc = p ++ q → utf8Decode p = none
  /-- The buffer is what the trace says (rule R156). -/
  outIsTrace : s.out = visibleText s.trace
  /-- Every Emit carries exactly one character (rule R157 c). -/
  traceOk : ∀ e ∈ s.trace, e.Ok

/-- The state with `pc` at a word index and nothing else changed. -/
def State.withPc (s : State) (pc : Byte) : State := { s with regs := { s.regs with r7 := pc } }

/-- What writing `v` to the register a `dest` byte names and then advancing leaves (rules R13, R18 and R90), slot by slot,
cell by cell: slot 5 changes by the read-back only, slot 6 never, and slot 7 takes the advance after the write. -/
structure WroteDest (s : State) (d v : Byte) (t : State) : Prop where
  r0 : t.regs.r0 = if d.toNat % 8 = 0 then v else s.regs.r0
  r1 : t.regs.r1 = if d.toNat % 8 = 1 then v else s.regs.r1
  r2 : t.regs.r2 = if d.toNat % 8 = 2 then v else s.regs.r2
  r3 : t.regs.r3 = if d.toNat % 8 = 3 then v else s.regs.r3
  r4 : t.regs.r4 = if d.toNat % 8 = 4 then v else s.regs.r4
  r5 : t.regs.r5 = if d.toNat % 8 = 4 then s.memRead v else s.regs.r5
  r6 : t.regs.r6 = s.regs.r6
  r7 : t.regs.r7 = (if d.toNat % 8 = 7 then v else s.regs.r7) + 1
  mem : ∀ a, t.memRead a = if d.toNat % 8 = 5 ∧ a = s.regs.r4 then v else s.memRead a
  stack : t.stack = s.stack
  halted : t.halted = s.halted
  acc : t.acc = s.acc
  out : t.out = s.out
  trace : t.trace = s.trace
  program : t.program = s.program

/-- The `dest` byte of the instructions that write a register through RegWrite: ALU, MOV and POP (rule R64). -/
def destByte : Instr → Option Byte
  | .and _ _ d => some d
  | .ror _ _ d => some d
  | .add _ _ d => some d
  | .xor _ _ d => some d
  | .or _ _ d => some d
  | .rol _ _ d => some d
  | .sub _ _ d => some d
  | .not _ d => some d
  | .jmp _ => none
  | .jne _ _ _ => none
  | .jge _ _ _ => none
  | .jgt _ _ _ => none
  | .nop => none
  | .jeq _ _ _ => none
  | .jlt _ _ _ => none
  | .jle _ _ _ => none
  | .mov _ d => some d
  | .swap _ _ => none
  | .push _ => none
  | .pop d => some d
  | .wrt _ _ => none
  | .call _ => none
  | .jre => none
  | .hcf => none
  | .class3 => none

/-- The instruction names the slot of this index as its register destination. -/
def NamesDest (i : Instr) (index : Nat) : Prop := ∃ d, destByte i = some d ∧ d.toNat % 8 = index

/-- The instruction is a SWAP that names the slot of this index. -/
def NamesSwap (i : Instr) (index : Nat) : Prop :=
  ∃ x y, i = .swap x y ∧ (x.toNat % 8 = index ∨ y.toNat % 8 = index)

/-- The number of a word's row in the opcode map: class and subtype as one number (rules R61 and R66). -/
def rowOf (w : InstrWord) : Nat := w.opcode.toNat % 32

/-- An operand field of two words read alike: the same flag, and the same immediate byte or the same low 3 bits. -/
def SameOperand (f f' : Bool) (b b' : Byte) : Prop := f = f' ∧ if f then b = b' else b.toNat % 8 = b'.toNat % 8

/-- Two words that agree on every field their instruction uses (rule R71). The lists are row numbers: those that use
operand1, operand2, `dest` as a register, `dest` as a target; row 17 is SWAP, rows 24 and above are class 3. -/
def AgreeOnUsedFields (w w' : InstrWord) : Prop :=
  (24 ≤ rowOf w ∧ 24 ≤ rowOf w')
    ∨ (rowOf w = rowOf w'
      ∧ (rowOf w ∈ [0, 1, 2, 3, 4, 5, 6, 7, 9, 10, 11, 13, 14, 15, 16, 18, 20, 21] →
          SameOperand (imm1 w.opcode) (imm1 w'.opcode) w.operand1 w'.operand1)
      ∧ (rowOf w ∈ [0, 1, 2, 3, 4, 5, 6, 9, 10, 11, 13, 14, 15, 20] →
          SameOperand (imm2 w.opcode) (imm2 w'.opcode) w.operand2 w'.operand2)
      ∧ (rowOf w ∈ [0, 1, 2, 3, 4, 5, 6, 7, 16, 19] → w.dest.toNat % 8 = w'.dest.toNat % 8)
      ∧ (rowOf w ∈ [8, 9, 10, 11, 13, 14, 15] → w.dest = w'.dest)
      ∧ (rowOf w = 17 →
          w.operand1.toNat % 8 = w'.operand1.toNat % 8 ∧ w.operand2.toNat % 8 = w'.operand2.toNat % 8))

/-- Two states that differ at most in the output unit: its accumulator, its buffer, its trace. -/
structure SameButOutput (s t : State) : Prop where
  regs : s.regs = t.regs
  mem : s.mem = t.mem
  stack : s.stack = t.stack
  halted : s.halted = t.halted
  program : s.program = t.program

/-- One row of the table of well-formed UTF-8 sequences and the scalar value it decodes to (rule R152). -/
inductive Utf8Row : List Byte → Scalar → Prop where
  | one (b1 : Byte) (h : b1.toNat ≤ 0x7F) : Utf8Row [b1] b1.toNat
  | two (b1 b2 : Byte) (h1 : 0xC2 ≤ b1.toNat ∧ b1.toNat ≤ 0xDF) (h2 : 0x80 ≤ b2.toNat ∧ b2.toNat ≤ 0xBF) :
      Utf8Row [b1, b2] ((b1 &&& 0x1F).toNat * 64 + (b2 &&& 0x3F).toNat)
  | three (b1 b2 b3 : Byte)
      (h1 : (b1.toNat = 0xE0 ∧ 0xA0 ≤ b2.toNat ∧ b2.toNat ≤ 0xBF)
        ∨ (0xE1 ≤ b1.toNat ∧ b1.toNat ≤ 0xEC ∧ 0x80 ≤ b2.toNat ∧ b2.toNat ≤ 0xBF)
        ∨ (b1.toNat = 0xED ∧ 0x80 ≤ b2.toNat ∧ b2.toNat ≤ 0x9F)
        ∨ (0xEE ≤ b1.toNat ∧ b1.toNat ≤ 0xEF ∧ 0x80 ≤ b2.toNat ∧ b2.toNat ≤ 0xBF))
      (h3 : 0x80 ≤ b3.toNat ∧ b3.toNat ≤ 0xBF) :
      Utf8Row [b1, b2, b3] ((b1 &&& 0x0F).toNat * 4096 + (b2 &&& 0x3F).toNat * 64 + (b3 &&& 0x3F).toNat)
  | four (b1 b2 b3 b4 : Byte)
      (h1 : (b1.toNat = 0xF0 ∧ 0x90 ≤ b2.toNat ∧ b2.toNat ≤ 0xBF)
        ∨ (0xF1 ≤ b1.toNat ∧ b1.toNat ≤ 0xF3 ∧ 0x80 ≤ b2.toNat ∧ b2.toNat ≤ 0xBF)
        ∨ (b1.toNat = 0xF4 ∧ 0x80 ≤ b2.toNat ∧ b2.toNat ≤ 0x8F))
      (h3 : 0x80 ≤ b3.toNat ∧ b3.toNat ≤ 0xBF) (h4 : 0x80 ≤ b4.toNat ∧ b4.toNat ≤ 0xBF) :
      Utf8Row [b1, b2, b3, b4]
        ((b1 &&& 0x07).toNat * 262144 + (b2 &&& 0x3F).toNat * 4096 + (b3 &&& 0x3F).toNat * 64 + (b4 &&& 0x3F).toNat)

/-- A concatenation of well-formed sequences and the text it stands for (rule R152). -/
inductive Utf8Text : List Byte → Text → Prop where
  | nil : Utf8Text [] []
  | cons {seq rest : List Byte} {c : Scalar} {text : Text} (row : Utf8Row seq c) (tail : Utf8Text rest text) :
      Utf8Text (seq ++ rest) (c :: text)

/-- Bytes with which some concatenation of well-formed sequences begins (rules R152 and R157). -/
def Utf8Beginning (bytes : List Byte) : Prop := ∃ ext text, Utf8Text (bytes ++ ext) text

/-- A continuation byte (rule R152). -/
def IsContinuation (b : Byte) : Prop := 0x80 ≤ b.toNat ∧ b.toNat ≤ 0xBF

/-- The second bytes the rows of the table of rule R152 admit after a first byte. -/
def SecondByteFits (b1 b2 : Byte) : Prop :=
  if b1.toNat = 0xE0 then 0xA0 ≤ b2.toNat ∧ b2.toNat ≤ 0xBF
  else if b1.toNat = 0xED then 0x80 ≤ b2.toNat ∧ b2.toNat ≤ 0x9F
  else if b1.toNat = 0xF0 then 0x90 ≤ b2.toNat ∧ b2.toNat ≤ 0xBF
  else if b1.toNat = 0xF4 then 0x80 ≤ b2.toNat ∧ b2.toNat ≤ 0x8F
  else IsContinuation b2

end Sys2Proof.Machine
end

