-- ==== Sys2Proof/Certificates/Slice0/Obligations.lean ====
section
/-! DEFINITION. The statements for the provers. Each docstring cites the rules of spec/ a statement formalises and names
the spec's decisions (D<n> of 92_eei_decisions.md) and the assumptions it rests on. -/

open Sys2Proof Sys2Proof.Machine

/-- The words of rule R85, of E1, E2 and E9 of 95_test_vectors.md, of rule R116 (JEQ), of rule R132 and section 2.4 (SWAP), and of section 2.6 (class 3). The subtype numbers are the spec's decision D1 (assumption 9), that SWAP names operand1 and operand2 is D7 (assumption 15), class 3 is D3 (assumption 11). -/
def Obligations.DecodeReadsTheSpecWords : Prop :=
  decodeWord ⟨0x70, 0x05, 0x00, 0x00⟩ = .mov (.imm 5) 0
    ∧ decodeWord ⟨0x22, 0x00, 0x03, 0x00⟩ = .add (.reg 0) (.imm 3) 0
    ∧ decodeWord ⟨0x34, 0x00, 0x01, 0x00⟩ = .wrt (.reg 0) (.imm 1)
    ∧ decodeWord ⟨0x77, 0x00, 0x00, 0x00⟩ = .hcf
    ∧ decodeWord ⟨0x25, 0x00, 0x03, 0x01⟩ = .rol (.reg 0) (.imm 3) 1
    ∧ decodeWord ⟨0x02, 0x01, 0x02, 0x03⟩ = .add (.reg 1) (.reg 2) 3
    ∧ decodeWord ⟨0x68, 0x00, 0x00, 0x05⟩ = .jmp 5
    ∧ decodeWord ⟨0x2d, 0x05, 0x00, 0x0c⟩ = .jeq (.reg 5) (.imm 0) 12
    ∧ decodeWord ⟨0x35, 0x02, 0x00, 0x00⟩ = .call (.reg 2)
    ∧ decodeWord ⟨0x11, 0x01, 0x02, 0x00⟩ = .swap 1 2
    ∧ decodeWord ⟨0x73, 0x00, 0x00, 0x07⟩ = .pop 7
    ∧ decodeWord ⟨0x7f, 0xff, 0xff, 0xff⟩ = .class3

/-- No bit of an encoding is dropped (rules R60, R61 and R79). The subtype numbers are decision D1 (assumption 9), the unused fields of the canonical word decision D16 (assumption 25). -/
def Obligations.DecodeEncodeAgree : Prop :=
  ∀ (i : Instr) (rest : List Byte), decode (encode i ++ rest) = .ok (i, rest)

/-- Rules R61, R65, R66 and R67 for all 2^32 words. The row numbers are decision D1 (assumption 9), bit 7 ignored is D2 (assumption 10), class 3 is D3 (assumption 11), row 17's two indices are D7 (assumption 15), row 22 without operands is D19 (assumption 23). -/
def Obligations.DecodeFollowsOpcodeMap : Prop :=
  ∀ (w : InstrWord) (a b : Operand),
    a = (if w.opcode.toNat / 64 % 2 = 1 then .imm w.operand1 else .reg w.operand1) →
    b = (if w.opcode.toNat / 32 % 2 = 1 then .imm w.operand2 else .reg w.operand2) →
    decodeWord w =
      match rowOf w with
      | 0 => .and a b w.dest
      | 1 => .ror a b w.dest
      | 2 => .add a b w.dest
      | 3 => .xor a b w.dest
      | 4 => .or a b w.dest
      | 5 => .rol a b w.dest
      | 6 => .sub a b w.dest
      | 7 => .not a w.dest
      | 8 => .jmp w.dest
      | 9 => .jne a b w.dest
      | 10 => .jge a b w.dest
      | 11 => .jgt a b w.dest
      | 12 => .nop
      | 13 => .jeq a b w.dest
      | 14 => .jlt a b w.dest
      | 15 => .jle a b w.dest
      | 16 => .mov a w.dest
      | 17 => .swap w.operand1 w.operand2
      | 18 => .push a
      | 19 => .pop w.dest
      | 20 => .wrt a b
      | 21 => .call a
      | 22 => .jre
      | 23 => .hcf
      | _ => .class3

/-- Rules R62 and R71. The row numbers behind the field lists are decision D1 (assumption 9), bit 7 is D2 (assumption 10), the class 3 pair D3 (assumption 11), the low 3 bits of an index byte D4 (assumption 12), SWAP's fields D7 (assumption 15), JRE ignoring its bytes D19 (assumption 23). -/
def Obligations.UnusedFieldsDoNotMatter : Prop :=
  ∀ w w' : InstrWord, AgreeOnUsedFields w w' → ∀ s : State, exec (decodeWord w) s = exec (decodeWord w') s

/-- Rules R12, R14 and R63. The reduction to 3 bits before the test for index 5 is decision D4 (assumption 12). -/
def Obligations.OperandFetchValues : Prop :=
  ∀ (s : State) (b : Byte),
    s.fetch (.imm b) = b
      ∧ s.fetch (.reg b) =
          if b.toNat % 8 = 5 then s.memRead s.regs.r4 else s.observe.regs.getD (b.toNat % 8) 0

/-- The memory-mapped invariant of rule R42. -/
def Obligations.StoreThenLoadThroughThePair : Prop :=
  ∀ (s : State) (A V B : Byte), ∃ t1 t2 t3 t4 : State,
    exec (.mov (.imm A) 4) s = .next t1 ∧ exec (.mov (.imm V) 5) t1 = .next t2
      ∧ exec (.mov (.imm B) 4) t2 = .next t3 ∧ exec (.mov (.reg 5) 0) t3 = .next t4
      ∧ t2.regs.r4 = A ∧ t4.regs.r4 = B
      ∧ t4.regs.r0 = if B = A then V else s.memRead B

/-- Rules R26, R190 and R191. The accumulator and the buffer are decision D12 (assumption 8), that Load checks nothing is D15 (assumption 21); the trace and the program after reset are the model's choice (assumptions 4 and 1). -/
def Obligations.LoadGivesTheResetState : Prop :=
  (∀ bytes : List Byte,
      (State.load bytes).regs = ⟨0, 0, 0, 0, 0, 0, 0, 0⟩ ∧ (∀ a, (State.load bytes).memRead a = 0)
        ∧ (State.load bytes).stack = [] ∧ (State.load bytes).halted = false
        ∧ (State.load bytes).acc = [] ∧ (State.load bytes).out = [] ∧ (State.load bytes).trace = []
        ∧ (State.load bytes).program = bytes)
    ∧ State.reset = State.load []

/-- The start of the invariant that `InvariantKeptByEveryStep` carries. The accumulator and the buffer empty at load are decision D12 (assumption 8), the trace empty at reset and the canonical memory form are the model's own (assumptions 4 and 2). -/
def Obligations.LoadMeetsTheInvariant : Prop :=
  Inv State.reset ∧ ∀ bytes : List Byte, Inv (State.load bytes)

/-- Rules R15, R24, R156 and R157 (b, c) as one invariant of all states, not of runs from reset. The decoder is the default of decision D10 (assumption 6), the one buffer and trace decisions D11 and D26 (assumptions 18 and 30), the memory form the model's (assumption 2). -/
def Obligations.InvariantKeptByEveryStep : Prop :=
  ∀ s t : State, Inv s → step s = .next t → Inv t

/-- Rule R69: the bridge from the per-instruction statements to a step. -/
def Obligations.StepRunsTheDecodedInstruction : Prop :=
  ∀ (s : State) (i : Instr) (rest : List Byte),
    s.halted = false → decode (s.program.drop (4 * s.regs.r7.toNat)) = .ok (i, rest) → step s = exec i s

/-- Rules R68 and R69. A partial last word halts by decision D15 (assumption 21); pc is unchanged by decision D20 (assumption 19). -/
def Obligations.FetchReadsFourBytesOrHalts : Prop :=
  ∀ s : State, s.halted = false →
    (s.program.length < 4 * s.regs.r7.toNat + 4 → step s = .next { s with halted := true })
      ∧ (4 * s.regs.r7.toNat + 4 ≤ s.program.length →
          ∃ w : InstrWord, step s = exec (decodeWord w) s
            ∧ s.program[4 * s.regs.r7.toNat]? = some w.opcode
            ∧ s.program[4 * s.regs.r7.toNat + 1]? = some w.operand1
            ∧ s.program[4 * s.regs.r7.toNat + 2]? = some w.operand2
            ∧ s.program[4 * s.regs.r7.toNat + 3]? = some w.dest)

/-- Rules R20, R68, R137 and R176: what R20 says of `halted`. That a step of a halted core does nothing is decision D13 (assumption 19). -/
def Obligations.HaltedIsSetInExactlyTwoWays : Prop :=
  (∀ s t : State, step s = .next t → s.halted = true → t.halted = true)
    ∧ (∀ s t : State, step s = .next t → s.halted = false →
        (t.halted = true ↔
          fetchWord s.program s.regs.r7 = none
            ∨ ∃ w, fetchWord s.program s.regs.r7 = some w ∧ decodeWord w = .hcf))
    ∧ (∀ (i : Instr) (s t : State) (b : Bool), exec i s = .next t →
        exec i { s with halted := b } = .next { t with halted := if i = .hcf then true else b })
    ∧ ∀ s : State, s.observe.halted = s.halted

/-- Rules R70 and R170: no exception, no illegal encoding. -/
def Obligations.EveryWordExecutesAndNothingTraps : Prop :=
  (∀ s : State, Safe (step s)) ∧ (∀ (w : InstrWord) (s : State), Safe (exec (decodeWord w) s))
    ∧ ∀ (i : Instr) (s : State), Safe (exec i s)

/-- Rule R51. -/
def Obligations.ProgramStoreNeverChanges : Prop :=
  ∀ (k : Nat) (s t : State), stepN k s = .next t →
    t.program = s.program ∧ ∀ n : Byte, fetchWord t.program n = fetchWord s.program n

/-- Rules R197 and R69. That steps after an early stop change nothing, so that the two runs agree, is decision D13 (assumption 19). -/
def Obligations.RunIsRepeatedStep : Prop :=
  ∀ (n : Nat) (s : State), runCapped n s = stepN n s
    ∧ ∀ t : State, runCapped n s = .next t → t.halted = true → runCapped (n + 1) s = .next t

/-- The core never reads `acc` or `out` back into its other state (rules R24, R25 and R156): a two-run statement. -/
def Obligations.CoreIgnoresTheOutputUnit : Prop :=
  ∀ (k : Nat) (s s' t : State), SameButOutput s s' → stepN k s = .next t →
    ∃ t' : State, stepN k s' = .next t' ∧ SameButOutput t t'

/-- Rules R8 and R156. The buffer as state is decision D26 (assumption 30). -/
def Obligations.AtMostOneEventPerStep : Prop :=
  ∀ s t : State, step s = .next t →
    (t.trace = s.trace ∧ t.out = s.out)
      ∨ ∃ e : OutEvent, t.trace = s.trace ++ [e] ∧ t.out = e.apply s.out

/-- Rules R90, R91, R94, R95 and R98. A result written to r7 is advanced by decision D9 (assumption 17); dest is reduced to 3 bits by D4 (assumption 12), and a result stored through r5 leaves the shadow by D6 (assumption 14). -/
def Obligations.AluLogicResults : Prop :=
  ∀ (a b : Operand) (d : Byte) (s : State),
    (∃ (v : Byte) (t : State), exec (.and a b d) s = .next t ∧ WroteDest s d v t
        ∧ ∀ k < 8, v.getLsbD k = ((s.fetch a).getLsbD k && (s.fetch b).getLsbD k))
      ∧ (∃ (v : Byte) (t : State), exec (.xor a b d) s = .next t ∧ WroteDest s d v t
        ∧ ∀ k < 8, v.getLsbD k = ((s.fetch a).getLsbD k ^^ (s.fetch b).getLsbD k))
      ∧ (∃ (v : Byte) (t : State), exec (.or a b d) s = .next t ∧ WroteDest s d v t
        ∧ ∀ k < 8, v.getLsbD k = ((s.fetch a).getLsbD k || (s.fetch b).getLsbD k))
      ∧ (∃ (v : Byte) (t : State), exec (.not a d) s = .next t ∧ WroteDest s d v t
        ∧ v.toNat = 255 - (s.fetch a).toNat)

/-- Rules R90, R93 and R97, with D9 (assumption 17), D4 (assumption 12) and D6 (assumption 14, the shadow after a result stored through r5) for the destination. -/
def Obligations.AluAddSubResults : Prop :=
  ∀ (a b : Operand) (d : Byte) (s : State),
    (∃ (v : Byte) (t : State), exec (.add a b d) s = .next t ∧ WroteDest s d v t
        ∧ v.toNat = ((s.fetch a).toNat + (s.fetch b).toNat) % 256)
      ∧ (∃ (v : Byte) (t : State), exec (.sub a b d) s = .next t ∧ WroteDest s d v t
        ∧ (v.toNat : Int) = ((s.fetch a).toNat - (s.fetch b).toNat : Int) % 256)

/-- Rules R90, R92 and R96, with D9 (assumption 17), D4 (assumption 12) and D6 (assumption 14, the shadow after a result stored through r5) for the destination. -/
def Obligations.AluRotateResults : Prop :=
  ∀ (a b : Operand) (d : Byte) (s : State),
    (∃ (v : Byte) (t : State), exec (.ror a b d) s = .next t ∧ WroteDest s d v t
        ∧ ∀ k < 8, v.getLsbD k = (s.fetch a).getLsbD ((k + (s.fetch b).toNat % 8) % 8))
      ∧ (∃ (v : Byte) (t : State), exec (.rol a b d) s = .next t ∧ WroteDest s d v t
        ∧ ∀ k < 8, v.getLsbD ((k + (s.fetch b).toNat % 8) % 8) = (s.fetch a).getLsbD k)

/-- The corner cases of rule R96 and the law of rule R99. -/
def Obligations.RotateCountsReduceMod8 : Prop :=
  ∀ (a : Operand) (n d : Byte) (s : State),
    exec (.rol a (.imm n) d) s = exec (.ror a (.imm (BitVec.ofNat 8 ((8 - n.toNat % 8) % 8))) d) s
      ∧ exec (.ror a (.imm (n + 8)) d) s = exec (.ror a (.imm n) d) s
      ∧ exec (.rol a (.imm (n + 8)) d) s = exec (.rol a (.imm n) d) s

/-- Rules R111, R115 and R67. Class 3 is decision D3 (assumption 11). -/
def Obligations.JumpNopAndClass3SetOnlyPc : Prop :=
  ∀ (target : Byte) (s : State),
    exec (.jmp target) s = .next (s.withPc target)
      ∧ exec .nop s = .next (s.withPc (s.regs.r7 + 1))
      ∧ exec .class3 s = .next (s.withPc (s.regs.r7 + 1))

/-- Rules R110, R112 and R116. -/
def Obligations.EqualityBranches : Prop :=
  ∀ (a b : Operand) (target : Byte) (s : State),
    exec (.jne a b target) s = .next (s.withPc (if s.fetch a ≠ s.fetch b then target else s.regs.r7 + 1))
      ∧ exec (.jeq a b target) s = .next (s.withPc (if s.fetch a = s.fetch b then target else s.regs.r7 + 1))

/-- Rules R113, R114, R117 and R118. Unsigned, operand1 on the left: decision D5 (assumption 13). -/
def Obligations.OrderedBranchesAreUnsigned : Prop :=
  ∀ (a b : Operand) (target : Byte) (s : State),
    exec (.jge a b target) s =
        .next (s.withPc (if (s.fetch a).toNat ≥ (s.fetch b).toNat then target else s.regs.r7 + 1))
      ∧ exec (.jgt a b target) s =
        .next (s.withPc (if (s.fetch a).toNat > (s.fetch b).toNat then target else s.regs.r7 + 1))
      ∧ exec (.jlt a b target) s =
        .next (s.withPc (if (s.fetch a).toNat < (s.fetch b).toNat then target else s.regs.r7 + 1))
      ∧ exec (.jle a b target) s =
        .next (s.withPc (if (s.fetch a).toNat ≤ (s.fetch b).toNat then target else s.regs.r7 + 1))

/-- The remark of rule R119. It rests on the numbering of decision D1 (assumption 9), the order of D5 (assumption 13) and, for
words with opcode bit 7 set, on D2 (assumption 10). -/
def Obligations.SubtypeBit2NegatesTheTest : Prop :=
  ∀ (w : InstrWord) (s : State), 8 ≤ rowOf w → rowOf w < 12 →
    (exec (decodeWord w) s = .next (s.withPc w.dest)
        ∧ exec (decodeWord { w with opcode := w.opcode + 4 }) s = .next (s.withPc (s.regs.r7 + 1)))
      ∨ (exec (decodeWord w) s = .next (s.withPc (s.regs.r7 + 1))
        ∧ exec (decodeWord { w with opcode := w.opcode + 4 }) s = .next (s.withPc w.dest))

/-- Rules R131 and R13. The shadow after a write to r5 is decision D6 (assumption 14), the advance after a write to r7 D9 (assumption 17), the index D4 (assumption 12). -/
def Obligations.MovWritesItsOperand : Prop :=
  ∀ (a : Operand) (d : Byte) (s : State),
    ∃ t : State, exec (.mov a d) s = .next t ∧ WroteDest s d (s.fetch a) t

/-- Rule R132. The fields are decision D7 (assumption 15), the advance after D9 (assumption 17), the indices D4 (assumption 12). -/
def Obligations.SwapExchangesRawSlots : Prop :=
  ∀ (x y : Byte) (s : State), ∃ t : State, exec (.swap x y) s = .next t ∧ t = { s with regs := t.regs }
    ∧ if x.toNat % 8 = 6 ∨ y.toNat % 8 = 6 then t = s.withPc (s.regs.r7 + 1)
      else ∀ k < 8, t.observe.regs.getD k 0 =
        (if k = y.toNat % 8 then s.observe.regs.getD (x.toNat % 8) 0
         else if k = x.toNat % 8 then s.observe.regs.getD (y.toNat % 8) 0
         else s.observe.regs.getD k 0) + if k = 7 then 1 else 0

/-- Rule R133. -/
def Obligations.PushPushesItsOperand : Prop :=
  ∀ (a : Operand) (s : State),
    exec (.push a) s = .next { s.withPc (s.regs.r7 + 1) with stack := s.fetch a :: s.stack }

/-- Rules R134 and R13. POP r6 is decision D25 (assumption 24), the shadow after POP r5 D6 (assumption 14), the advance after a write to r7 D9 (assumption 17), the index D4 (assumption 12). -/
def Obligations.PopTakesTheTopOrNothing : Prop :=
  ∀ (d : Byte) (s : State),
    match s.stack with
    | [] => exec (.pop d) s = .next (s.withPc (s.regs.r7 + 1))
    | top :: rest => ∃ t : State, exec (.pop d) s = .next t ∧ WroteDest { s with stack := rest } d top t

/-- Rule R135. -/
def Obligations.CallPushesItsOwnIndex : Prop :=
  ∀ (a : Operand) (s : State),
    exec (.call a) s = .next { s.withPc (s.fetch a) with stack := s.regs.r7 :: s.stack }

/-- Rules R136 and R6. The form without operands is decision D19 (assumption 23). -/
def Obligations.JreAddsTheSignedOffset : Prop :=
  ∀ s : State, ∃ t : State, exec .jre s = .next t ∧ t = s.withPc t.regs.r7
    ∧ (t.regs.r7.toNat : Int) =
        ((s.regs.r7.toNat : Int)
          + if s.regs.r0.toNat < 128 then (s.regs.r0.toNat : Int) else (s.regs.r0.toNat : Int) - 256) % 256
    ∧ t.regs.r7 = s.regs.r7 + s.regs.r0

/-- Rule R137. The unchanged pc is decision D20 (assumption 19). -/
def Obligations.HcfOnlyHalts : Prop :=
  ∀ s : State, exec .hcf s = .next { s with halted := true }

/-- The call and return convention of rule R138, which rests on decision D9 (assumption 17). A dest byte of 15 to 255 that ends in 7 acts as r7 by D4 (assumption 12). -/
def Obligations.PopR7ReturnsAfterTheCall : Prop :=
  ∀ (a : Operand) (s t u : State) (d : Byte),
    exec (.call a) s = .next t → u.stack = t.stack → d.toNat % 8 = 7 →
      ∃ v : State, exec (.pop d) u = .next v
        ∧ v = { u with regs := { u.regs with r7 := s.regs.r7 + 1 }, stack := s.stack }

/-- Rules R150 and R151. That the fetched selector chooses the format is decision D8 (assumption 16), the decoder is the default of D10 (assumption 6, see `Utf8DecodeIsTheTable` and, for any decoder, `WrtStreamsWithAnyDecoder`), the buffer as state D26 (assumption 30). -/
def Obligations.WrtStreamsUtf8 : Prop :=
  ∀ (a f : Operand) (s : State), (s.fetch f).toNat % 4 = 0 →
    exec (.wrt a f) s = .next (State.withPc
      (if s.fetch a = 0 then { s with acc := [], out := [], trace := s.trace ++ [.clear] }
       else
        match utf8Decode (s.acc ++ [s.fetch a]) with
        | some text => { s with acc := [], out := s.out ++ text, trace := s.trace ++ [.emit text] }
        | none => { s with acc := s.acc ++ [s.fetch a] })
      (s.regs.r7 + 1))

/-- Rules R150 and R153 to R155. The selector is decision D8 (assumption 16), the accumulator D11 (assumption 18), the letter case D21 and the character codes G2 (assumption 7), the buffer as state D26 (assumption 30). -/
def Obligations.WrtPrintsOneCharacter : Prop :=
  ∀ (a f : Operand) (s : State) (c : Nat), (s.fetch f).toNat % 4 ≠ 0 →
    c = (if (s.fetch f).toNat % 4 = 1 then
          (if (s.fetch a).toNat ≤ 9 then 0x30 + (s.fetch a).toNat else 0x3F)
        else if (s.fetch f).toNat % 4 = 2 then
          (if (s.fetch a).toNat ≤ 25 then 0x41 + (s.fetch a).toNat else 0x3F)
        else if (s.fetch a).toNat ≤ 9 then 0x30 + (s.fetch a).toNat
        else if (s.fetch a).toNat ≤ 15 then 0x41 + ((s.fetch a).toNat - 10) else 0x3F) →
    exec (.wrt a f) s =
      .next { s.withPc (s.regs.r7 + 1) with out := s.out ++ [c], trace := s.trace ++ [.emit [c]] }

/-- The default of rule R152: decision D10 with the table of G1 (assumption 6). -/
def Obligations.Utf8DecodeIsTheTable : Prop :=
  ∀ (bytes : List Byte) (text : Text), utf8Decode bytes = some text ↔ bytes ≠ [] ∧ Utf8Text bytes text

/-- Rule R157 (d), for a break at any byte of a sequence, under the default decoder of decision D10 (assumption 6). That the fetched selector chooses the format is D8 (assumption 16). -/
def Obligations.BrokenSequenceSilencesTheStream : Prop :=
  (∀ bytes ext : List Byte, ¬ Utf8Beginning bytes → utf8Decode (bytes ++ ext) = none)
    ∧ (∀ (b : Byte) (ext : List Byte), (0x80 ≤ b.toNat ∧ b.toNat ≤ 0xC1) ∨ 0xF5 ≤ b.toNat →
        utf8Decode (b :: ext) = none)
    ∧ (∀ (b c : Byte) (ext : List Byte), 0xC2 ≤ b.toNat → c.toNat < 0x80 ∨ 0xBF < c.toNat →
        utf8Decode (b :: c :: ext) = none)
    ∧ (∀ (b c : Byte) (ext : List Byte), 0xC2 ≤ b.toNat → b.toNat ≤ 0xF4 → ¬ SecondByteFits b c →
        utf8Decode (b :: c :: ext) = none)
    ∧ (∀ (b c d : Byte) (ext : List Byte), 0xE0 ≤ b.toNat → ¬ IsContinuation d →
        utf8Decode (b :: c :: d :: ext) = none)
    ∧ (∀ (b c d e : Byte) (ext : List Byte), 0xF0 ≤ b.toNat → ¬ IsContinuation e →
        utf8Decode (b :: c :: d :: e :: ext) = none)
    ∧ (∀ (a f : Operand) (s : State), (s.fetch f).toNat % 4 = 0 → s.fetch a ≠ 0 →
        (∀ ext : List Byte, utf8Decode (s.acc ++ s.fetch a :: ext) = none) →
        ∃ t : State, exec (.wrt a f) s = .next t
          ∧ t = { s.withPc (s.regs.r7 + 1) with acc := s.acc ++ [s.fetch a] }
          ∧ ∀ ext : List Byte, utf8Decode (t.acc ++ ext) = none)

/-- Rule R157 (a), and the one property of the decoder that U8 lets a model rest on. That the fetched selector chooses the format is decision D8 (assumption 16), the decoder is the default of D10 (assumption 6), the buffer as state D26 (assumption 30). -/
def Obligations.AsciiIsEmittedAtOnce : Prop :=
  ∀ (a f : Operand) (s : State), s.acc = [] → (s.fetch f).toNat % 4 = 0 →
    1 ≤ (s.fetch a).toNat → (s.fetch a).toNat ≤ 0x7F →
    exec (.wrt a f) s = .next { s.withPc (s.regs.r7 + 1) with
      out := s.out ++ [(s.fetch a).toNat], trace := s.trace ++ [.emit [(s.fetch a).toNat]] }

/-- Rules R22, R40 and R45: the frame of memory over all instructions, with the index of decision D4 (assumption 12). -/
def Obligations.MemoryChangesOnlyThroughR5 : Prop :=
  ∀ (i : Instr) (s t : State) (a : Byte), exec i s = .next t → t.memRead a ≠ s.memRead a →
    NamesDest i 5 ∧ a = s.regs.r4

/-- Rules R21 and R133 to R135, unbounded by decision D14 (assumption 20). That POP with dest index 6 also removes the top is D25 (assumption 24). -/
def Obligations.StackChangesOnlyByPushPopCall : Prop :=
  ∀ (i : Instr) (s t : State), exec i s = .next t →
    t.stack =
      match i with
      | .push a => s.fetch a :: s.stack
      | .call _ => s.regs.r7 :: s.stack
      | .pop _ => s.stack.tail
      | _ => s.stack

/-- Rule R16, which is decision D6 (assumption 14); the slots a SWAP names by D7 (assumption 15), indices by D4 (assumption 12). -/
def Obligations.ShadowChangesInExactlyTwoWays : Prop :=
  ∀ (i : Instr) (s t : State), exec i s = .next t → t.regs.r5 ≠ s.regs.r5 →
    (NamesDest i 4 ∧ t.regs.r5 = t.memRead t.regs.r4) ∨ NamesSwap i 5

/-- Rules R13, R15 and R132: the frame of the slots over all instructions, with decisions D4 and D7 (assumptions 12 and 15). -/
def Obligations.SlotsChangeOnlyWhereNamed : Prop :=
  ∀ (i : Instr) (s t : State), exec i s = .next t →
    t.regs.r6 = s.regs.r6
      ∧ ∀ k < 5, t.observe.regs.getD k 0 ≠ s.observe.regs.getD k 0 → NamesDest i k ∨ NamesSwap i k

/-- Rules R24, R25 and R150, with decisions D8, D11 and D26 (assumptions 16, 18 and 30). -/
def Obligations.OutputChangesOnlyByWrt : Prop :=
  ∀ (i : Instr) (s t : State), exec i s = .next t →
    ((∀ a f, i ≠ .wrt a f) → t.acc = s.acc ∧ t.out = s.out ∧ t.trace = s.trace)
      ∧ ∀ a f, i = .wrt a f → (s.fetch f).toNat % 4 ≠ 0 → t.acc = s.acc

/-- The hangs of rule R183 that change nothing. JRE without operands is decision D19 (assumption 23). -/
def Obligations.JumpToItselfNeverHalts : Prop :=
  ∀ (s : State) (w : InstrWord) (n : Nat), s.halted = false → fetchWord s.program s.regs.r7 = some w →
    decodeWord w = .jmp s.regs.r7 ∨ (decodeWord w = .jre ∧ s.regs.r0 = 0) →
    stepN n s = .next s

/-- The last sentence of rule R68. -/
def Obligations.LongProgramNeverRunsOff : Prop :=
  ∀ s t : State, 1024 ≤ s.program.length → s.halted = false → step s = .next t → t.halted = true →
    ∃ w : InstrWord, fetchWord s.program s.regs.r7 = some w ∧ decodeWord w = .hcf

/-- The model's own: withFetchWord stands for Load (assumption 1), the numbering is decision D18 (assumption 22). -/
def Obligations.PlacedWordIsTheWordRun : Prop :=
  ∀ (s : State) (nbits w : Nat),
    step (s.withFetchWord nbits w) = exec (decodeWord (tableWord nbits w)) (s.withFetchWord nbits w)
      ∧ ∀ k : Nat, k < s.program.length → k < 4 * s.regs.r7.toNat ∨ 4 * s.regs.r7.toNat + 4 ≤ k →
          (s.withFetchWord nbits w).program[k]? = s.program[k]?

/-- Rules R83, R79, R62 and R67, of the toolchain (assumption 31). Bit 7 written as 0 is decision D2 (assumption 10). -/
def Obligations.AssembledProgramsAreWholeWords : Prop :=
  ∀ (source : String) (r : Asm.Output), Asm.assemble source = .ok r →
    ∃ words : List InstrWord, r.bytes = words.flatMap InstrWord.bytes ∧ r.bytes.length = 4 * words.length
      ∧ ∀ w ∈ words, w.opcode.getLsbD 7 = false ∧ rowOf w < 24

/-- Rule R79, with the numbering of decision D1 (assumption 9). -/
def Obligations.AssembledLineReadsBack : Prop :=
  ∀ (e : Asm.Token × BitVec 2 × BitVec 3) (a b d : Asm.Value), e ∈ Asm.mnemonics →
    Asm.mnemonics[rowOf (Asm.encodeResolved e.2.1 e.2.2 a b d)]? = some e
      ∧ flagged (imm1 (Asm.encodeResolved e.2.1 e.2.2 a b d).opcode)
          (Asm.encodeResolved e.2.1 e.2.2 a b d).operand1 =
        (match a with | .register x => .reg x | .literal v => .imm v)
      ∧ flagged (imm2 (Asm.encodeResolved e.2.1 e.2.2 a b d).opcode)
          (Asm.encodeResolved e.2.1 e.2.2 a b d).operand2 =
        (match b with | .register x => .reg x | .literal v => .imm v)
      ∧ (Asm.encodeResolved e.2.1 e.2.2 a b d).dest =
        (match d with | .register x => x | .literal v => v)

/-- Rules R4, R150 and R151, with the decoder an argument. That the fetched selector chooses the format is decision D8 (assumption 16), the buffer as state D26 (assumption 30). R156 defines Emit for a non-empty text only; that a decoder's empty text is emitted too is the model's choice (assumption 32). -/
def Obligations.WrtStreamsWithAnyDecoder : Prop :=
  ∀ (decoder : List Byte → Option Text) (a f : Operand) (s : State), (s.fetch f).toNat % 4 = 0 →
    execWith decoder (.wrt a f) s = .next (State.withPc
      (if s.fetch a = 0 then { s with acc := [], out := [], trace := s.trace ++ [.clear] }
       else
        match decoder (s.acc ++ [s.fetch a]) with
        | some text => { s with acc := [], out := s.out ++ text, trace := s.trace ++ [.emit text] }
        | none => { s with acc := s.acc ++ [s.fetch a] })
      (s.regs.r7 + 1))

/-- Rule R4 makes the decoder an argument with a default. The default is decision D10 (assumption 6). -/
def Obligations.DefaultDecoderGivesTheMachine : Prop :=
  (∀ (i : Instr) (s : State), execWith utf8Decode i s = exec i s)
    ∧ (∀ s : State, stepWith utf8Decode s = step s)
    ∧ (∀ (n : Nat) (s : State), stepNWith utf8Decode n s = stepN n s ∧ runCappedWith utf8Decode n s = runCapped n s)
    ∧ coreWith utf8Decode = Sys2Proof.core

/-- Rule R4's decoder parameter and the output unit of rules R24, R25 and R156: a two-run statement over two decoders. -/
def Obligations.DecoderReachesOnlyTheOutputUnit : Prop :=
  ∀ (decoder decoder' : List Byte → Option Text) (k : Nat) (s s' t : State), SameButOutput s s' →
    stepNWith decoder k s = .next t →
    ∃ t' : State, stepNWith decoder' k s' = .next t' ∧ SameButOutput t t'

/-- What U8 lets a model keep when it takes the decoder as an argument (rules R4 and R151). That the fetched selector chooses the format is decision D8 (assumption 16), the buffer as state D26 (assumption 30). -/
def Obligations.AsciiUnderAnyAgreeingDecoder : Prop :=
  ∀ (decoder : List Byte → Option Text),
    (∀ v : Byte, 1 ≤ v.toNat → v.toNat ≤ 0x7F → decoder [v] = some [v.toNat]) →
    ∀ (a f : Operand) (s : State), s.acc = [] → (s.fetch f).toNat % 4 = 0 →
      1 ≤ (s.fetch a).toNat → (s.fetch a).toNat ≤ 0x7F →
      execWith decoder (.wrt a f) s = .next { s.withPc (s.regs.r7 + 1) with
        out := s.out ++ [(s.fetch a).toNat], trace := s.trace ++ [.emit [(s.fetch a).toNat]] }

/-- Rule R41. -/
def Obligations.MemoryIsReadAndWrittenAtR4Only : Prop :=
  (∀ (s : State) (addr : Byte), s.observe.mem.length = 256 ∧ s.observe.mem[addr.toNat]? = some (s.memRead addr))
    ∧ (∀ (s : State) (addr v : Byte),
        s.memWrite addr v = { s with mem := (s.memWrite addr v).mem }
          ∧ ∀ a : Byte, (s.memWrite addr v).observe.mem[a.toNat]? =
              if a = addr then some v else s.observe.mem[a.toNat]?)
    ∧ ∀ (i : Instr) (s t : State), exec i s = .next t →
        (t.mem = s.mem
            ∧ ∀ m : Memory, m.read s.regs.r4.toNat = s.memRead s.regs.r4 →
                m.read t.regs.r4.toNat = s.memRead t.regs.r4 →
                exec i { s with mem := m } = .next { t with mem := m })
          ∨ ∃ v : Byte, t.mem = s.mem.write s.regs.r4.toNat v
            ∧ ∀ m : Memory, m.read s.regs.r4.toNat = s.memRead s.regs.r4 →
                exec i { s with mem := m } = .next { t with mem := m.write s.regs.r4.toNat v }

/-- Rule R78 with rule R79, for the nine short forms: decisions D16 and D17 (assumptions 25 and 31). -/
def Obligations.ShorthandZerosAreLiterals : Prop :=
  ∀ (constants : List (Asm.Token × Asm.Value)) (p : Asm.Pass) (line : Nat) (raw : List Char)
    (n : Asm.Token) (cls : BitVec 2) (sub : BitVec 3), Asm.mnemonics.lookup n = some (cls, sub) →
    (n ∈ ["HCF".toList, "JRE".toList, "NOP".toList] →
      Asm.encodeInstruction constants p line raw n [] =
        .ok { p with words := p.words ++ [⟨opcodeByte true true cls sub, 0, 0, 0⟩] })
    ∧ ∀ (a : Asm.Token) (x : Asm.Value) (f : Option Asm.Token), Asm.resolve constants p a = .ok (x, f) →
      (n ∈ ["PUSH".toList, "CALL".toList] →
        (Asm.encodeInstruction constants p line raw n [a]).map (·.words) =
          .ok (p.words ++ [⟨opcodeByte x.flag true cls sub, x.byte, 0, 0⟩]))
      ∧ (n ∈ ["JMP".toList, "POP".toList] →
        (Asm.encodeInstruction constants p line raw n [a]).map (·.words) =
          .ok (p.words ++ [⟨opcodeByte true true cls sub, 0, 0, x.byte⟩]))
      ∧ ∀ (b : Asm.Token) (y : Asm.Value) (g : Option Asm.Token), Asm.resolve constants p b = .ok (y, g) →
        (n = "MOV".toList →
          (Asm.encodeInstruction constants p line raw n [a, b]).map (·.words) =
            .ok (p.words ++ [⟨opcodeByte x.flag true cls sub, x.byte, 0, y.byte⟩]))
        ∧ (n = "WRT".toList →
          (Asm.encodeInstruction constants p line raw n [a, b]).map (·.words) =
            .ok (p.words ++ [⟨opcodeByte x.flag y.flag cls sub, x.byte, y.byte, 0⟩]))
end

