-- ==== Sys2Proof/Laws/Decode.lean ====
section
/-! SUPPORT. The bits of an encoded opcode byte. -/

namespace Sys2Proof

@[simp] theorem imm1_opcodeByte (f1 f2 : Bool) (cls : BitVec 2) (sub : BitVec 3) :
    imm1 (opcodeByte f1 f2 cls sub) = f1 := by
  revert f1 f2 cls sub; decide

@[simp] theorem imm2_opcodeByte (f1 f2 : Bool) (cls : BitVec 2) (sub : BitVec 3) :
    imm2 (opcodeByte f1 f2 cls sub) = f2 := by
  revert f1 f2 cls sub; decide

/-- Class and subtype as one number (rule R61). -/
theorem opcodeByte_row (f1 f2 : Bool) (cls : BitVec 2) (sub : BitVec 3) :
    (opcodeByte f1 f2 cls sub).toNat % 32 = cls.toNat * 8 + sub.toNat := by
  revert f1 f2 cls sub; decide

/-- Bit 7 is written 0 (rule R62). -/
theorem opcodeByte_bit7 (f1 f2 : Bool) (cls : BitVec 2) (sub : BitVec 3) :
    (opcodeByte f1 f2 cls sub).getLsbD 7 = false := by
  revert f1 f2 cls sub; decide

@[simp] theorem flagged_flag_byte (o : Operand) : flagged o.flag o.byte = o := by
  cases o <;> rfl

end Sys2Proof
end

