-- ==== Sys2Proof/Laws/Memory.lean ====
section
/-! SUPPORT. The laws of the sparse memory: what a read gives after a write, and that a write keeps the canonical form. -/

namespace Sys2Proof.Machine

theorem Memory.read_insert_same (m : Memory) (a : Nat) (v : Byte) (h : ∀ c ∈ m, c.1 ≠ a) :
    (Memory.insert m a v).read a = v := by
  induction m with
  | nil => simp [Memory.insert, Memory.read]
  | cons c m ih =>
    simp only [Memory.insert]
    split
    · simp [Memory.read]
    · have hc : a ≠ c.1 := fun e => h c (by simp) e.symm
      simp only [Memory.read, if_neg hc]
      exact ih fun d hd => h d (by simp [hd])

theorem Memory.read_insert_other (m : Memory) (a b : Nat) (v : Byte) (h : b ≠ a) :
    (Memory.insert m a v).read b = Memory.read m b := by
  induction m with
  | nil => simp [Memory.insert, Memory.read, h]
  | cons c m ih =>
    simp only [Memory.insert]
    split
    · simp [Memory.read, h]
    · simp only [Memory.read, ih]

theorem Memory.read_filter_same (m : Memory) (a : Nat) :
    Memory.read (m.filter (fun c => c.1 != a)) a = Config.memReset := by
  induction m with
  | nil => rfl
  | cons c m ih =>
    by_cases h : c.1 = a
    · simpa [List.filter_cons, h] using ih
    · have h' : a ≠ c.1 := fun e => h e.symm
      simpa [List.filter_cons, h, Memory.read, h'] using ih

theorem Memory.read_filter_other (m : Memory) (a b : Nat) (h : b ≠ a) :
    Memory.read (m.filter (fun c => c.1 != a)) b = Memory.read m b := by
  induction m with
  | nil => rfl
  | cons c m ih =>
    by_cases hc : c.1 = a
    · have hb : b ≠ c.1 := by rw [hc]; exact h
      simpa [List.filter_cons, hc, Memory.read, hb, h] using ih
    · by_cases hb : b = c.1 <;> simp [hc, Memory.read, hb, ih]

/-- A read of the address just written gives the byte written, whatever the memory was. -/
theorem Memory.read_write_same (m : Memory) (a : Nat) (v : Byte) : (Memory.write m a v).read a = v := by
  unfold Memory.write
  split
  · rename_i h; rw [Memory.read_filter_same, h]
  · exact Memory.read_insert_same _ _ _ (by simp)

/-- A write leaves every other address alone. -/
theorem Memory.read_write_other (m : Memory) (a b : Nat) (v : Byte) (h : b ≠ a) :
    (Memory.write m a v).read b = Memory.read m b := by
  unfold Memory.write
  split
  · exact Memory.read_filter_other _ _ _ h
  · rw [Memory.read_insert_other _ _ _ _ h, Memory.read_filter_other _ _ _ h]

/-- The canonical form, cell by cell. -/
theorem Memory.wf_cons (c : Host.Cell) (m : Memory) : Memory.wf (c :: m) = true ↔
    c.1 < Config.memSize ∧ c.2 ≠ Config.memReset ∧ (∀ d ∈ m, c.1 < d.1) ∧ Memory.wf m = true := by
  simp [Memory.wf, and_assoc]

theorem Memory.wf_filter (m : Memory) (p : Host.Cell → Bool) (h : Memory.wf m = true) :
    Memory.wf (m.filter p) = true := by
  induction m with
  | nil => rfl
  | cons c m ih =>
    obtain ⟨h1, h2, h3, h4⟩ := (Memory.wf_cons c m).mp h
    by_cases hp : p c = true
    · rw [List.filter_cons_of_pos hp, Memory.wf_cons]
      exact ⟨h1, h2, fun d hd => h3 d (List.mem_of_mem_filter hd), ih h4⟩
    · rw [List.filter_cons_of_neg hp]
      exact ih h4

theorem Memory.mem_insert (m : Memory) (a : Nat) (v : Byte) (d : Host.Cell) :
    d ∈ (Memory.insert m a v : Memory) ↔ d = (a, v) ∨ d ∈ m := by
  induction m with
  | nil => simp [Memory.insert]
  | cons c m ih =>
    simp only [Memory.insert]
    split
    · simp
    · simp only [List.mem_cons, ih]
      tauto

theorem Memory.wf_insert (m : Memory) (a : Nat) (v : Byte) (h : Memory.wf m = true) (ha : a < Config.memSize)
    (hv : v ≠ Config.memReset) (hm : ∀ c ∈ m, c.1 ≠ a) : Memory.wf (Memory.insert m a v) = true := by
  induction m with
  | nil => simp [Memory.insert, Memory.wf, ha, hv]
  | cons c m ih =>
    obtain ⟨h1, h2, h3, h4⟩ := (Memory.wf_cons c m).mp h
    simp only [Memory.insert]
    split
    · rename_i hlt
      rw [Memory.wf_cons]
      refine ⟨ha, hv, fun d hd => ?_, h⟩
      rcases List.mem_cons.mp hd with rfl | hd
      · exact hlt
      · exact Nat.lt_trans hlt (h3 d hd)
    · rename_i hge
      rw [Memory.wf_cons]
      refine ⟨h1, h2, fun d hd => ?_, ih h4 fun d hd => hm d (by simp [hd])⟩
      rcases (Memory.mem_insert m a v d).mp hd with rfl | hd
      · have := hm c (by simp)
        show c.1 < a
        omega
      · exact h3 d hd

/-- A write below `Config.memSize` keeps the canonical form. -/
theorem Memory.wf_write (m : Memory) (a : Nat) (v : Byte) (h : Memory.wf m = true) (ha : a < Config.memSize) :
    Memory.wf (Memory.write m a v) = true := by
  unfold Memory.write
  split
  · exact Memory.wf_filter m _ h
  · rename_i hv
    exact Memory.wf_insert _ a v (Memory.wf_filter m _ h) ha hv (by simp)

/-- Every address a byte holds is below `Config.memSize` (rule R41). -/
theorem address_lt_memSize (a : Byte) : a.toNat < Config.memSize := a.isLt

end Sys2Proof.Machine
end

