-- ==== Sys2Proof/Laws/State.lean ====
section
/-! SUPPORT. One lemma per field per update of the state, each true by `rfl`, so that no proof unfolds a record update. -/

namespace Sys2Proof.Machine

@[simp] theorem State.setSlot_regs (s : State) (i : Reg) (v : Byte) : (s.setSlot i v).regs = s.regs.set i v := rfl
@[simp] theorem State.setSlot_mem (s : State) (i : Reg) (v : Byte) : (s.setSlot i v).mem = s.mem := rfl
@[simp] theorem State.setSlot_stack (s : State) (i : Reg) (v : Byte) : (s.setSlot i v).stack = s.stack := rfl
@[simp] theorem State.setSlot_halted (s : State) (i : Reg) (v : Byte) : (s.setSlot i v).halted = s.halted := rfl
@[simp] theorem State.setSlot_acc (s : State) (i : Reg) (v : Byte) : (s.setSlot i v).acc = s.acc := rfl
@[simp] theorem State.setSlot_out (s : State) (i : Reg) (v : Byte) : (s.setSlot i v).out = s.out := rfl
@[simp] theorem State.setSlot_trace (s : State) (i : Reg) (v : Byte) : (s.setSlot i v).trace = s.trace := rfl
@[simp] theorem State.setSlot_program (s : State) (i : Reg) (v : Byte) : (s.setSlot i v).program = s.program := rfl

@[simp] theorem State.memWrite_regs (s : State) (addr v : Byte) : (s.memWrite addr v).regs = s.regs := rfl
@[simp] theorem State.memWrite_mem (s : State) (addr v : Byte) : (s.memWrite addr v).mem = s.mem.write addr.toNat v := rfl
@[simp] theorem State.memWrite_stack (s : State) (addr v : Byte) : (s.memWrite addr v).stack = s.stack := rfl
@[simp] theorem State.memWrite_halted (s : State) (addr v : Byte) : (s.memWrite addr v).halted = s.halted := rfl
@[simp] theorem State.memWrite_acc (s : State) (addr v : Byte) : (s.memWrite addr v).acc = s.acc := rfl
@[simp] theorem State.memWrite_out (s : State) (addr v : Byte) : (s.memWrite addr v).out = s.out := rfl
@[simp] theorem State.memWrite_trace (s : State) (addr v : Byte) : (s.memWrite addr v).trace = s.trace := rfl
@[simp] theorem State.memWrite_program (s : State) (addr v : Byte) : (s.memWrite addr v).program = s.program := rfl

@[simp] theorem State.advancePC_regs (s : State) : s.advancePC.regs = s.regs.set .r7 (s.regs.r7 + 1) := rfl
@[simp] theorem State.advancePC_mem (s : State) : s.advancePC.mem = s.mem := rfl
@[simp] theorem State.advancePC_stack (s : State) : s.advancePC.stack = s.stack := rfl
@[simp] theorem State.advancePC_halted (s : State) : s.advancePC.halted = s.halted := rfl
@[simp] theorem State.advancePC_acc (s : State) : s.advancePC.acc = s.acc := rfl
@[simp] theorem State.advancePC_out (s : State) : s.advancePC.out = s.out := rfl
@[simp] theorem State.advancePC_trace (s : State) : s.advancePC.trace = s.trace := rfl
@[simp] theorem State.advancePC_program (s : State) : s.advancePC.program = s.program := rfl

@[simp] theorem State.jump_regs (s : State) (t : Byte) : (s.jump t).regs = s.regs.set .r7 t := rfl
@[simp] theorem State.jump_mem (s : State) (t : Byte) : (s.jump t).mem = s.mem := rfl
@[simp] theorem State.jump_stack (s : State) (t : Byte) : (s.jump t).stack = s.stack := rfl
@[simp] theorem State.jump_halted (s : State) (t : Byte) : (s.jump t).halted = s.halted := rfl
@[simp] theorem State.jump_acc (s : State) (t : Byte) : (s.jump t).acc = s.acc := rfl
@[simp] theorem State.jump_out (s : State) (t : Byte) : (s.jump t).out = s.out := rfl
@[simp] theorem State.jump_trace (s : State) (t : Byte) : (s.jump t).trace = s.trace := rfl
@[simp] theorem State.jump_program (s : State) (t : Byte) : (s.jump t).program = s.program := rfl

@[simp] theorem State.push_regs (s : State) (v : Byte) : (s.push v).regs = s.regs := rfl
@[simp] theorem State.push_mem (s : State) (v : Byte) : (s.push v).mem = s.mem := rfl
@[simp] theorem State.push_stack (s : State) (v : Byte) : (s.push v).stack = v :: s.stack := rfl
@[simp] theorem State.push_halted (s : State) (v : Byte) : (s.push v).halted = s.halted := rfl
@[simp] theorem State.push_acc (s : State) (v : Byte) : (s.push v).acc = s.acc := rfl
@[simp] theorem State.push_out (s : State) (v : Byte) : (s.push v).out = s.out := rfl
@[simp] theorem State.push_trace (s : State) (v : Byte) : (s.push v).trace = s.trace := rfl
@[simp] theorem State.push_program (s : State) (v : Byte) : (s.push v).program = s.program := rfl

@[simp] theorem State.halt_regs (s : State) : s.halt.regs = s.regs := rfl
@[simp] theorem State.halt_mem (s : State) : s.halt.mem = s.mem := rfl
@[simp] theorem State.halt_stack (s : State) : s.halt.stack = s.stack := rfl
@[simp] theorem State.halt_halted (s : State) : s.halt.halted = true := rfl
@[simp] theorem State.halt_acc (s : State) : s.halt.acc = s.acc := rfl
@[simp] theorem State.halt_out (s : State) : s.halt.out = s.out := rfl
@[simp] theorem State.halt_trace (s : State) : s.halt.trace = s.trace := rfl
@[simp] theorem State.halt_program (s : State) : s.halt.program = s.program := rfl

@[simp] theorem State.emit_regs (s : State) (x : Text) : (s.emit x).regs = s.regs := rfl
@[simp] theorem State.emit_mem (s : State) (x : Text) : (s.emit x).mem = s.mem := rfl
@[simp] theorem State.emit_stack (s : State) (x : Text) : (s.emit x).stack = s.stack := rfl
@[simp] theorem State.emit_halted (s : State) (x : Text) : (s.emit x).halted = s.halted := rfl
@[simp] theorem State.emit_acc (s : State) (x : Text) : (s.emit x).acc = s.acc := rfl
@[simp] theorem State.emit_out (s : State) (x : Text) : (s.emit x).out = s.out ++ x := rfl
@[simp] theorem State.emit_trace (s : State) (x : Text) : (s.emit x).trace = s.trace ++ [.emit x] := rfl
@[simp] theorem State.emit_program (s : State) (x : Text) : (s.emit x).program = s.program := rfl

@[simp] theorem State.clearOutput_regs (s : State) : s.clearOutput.regs = s.regs := rfl
@[simp] theorem State.clearOutput_mem (s : State) : s.clearOutput.mem = s.mem := rfl
@[simp] theorem State.clearOutput_stack (s : State) : s.clearOutput.stack = s.stack := rfl
@[simp] theorem State.clearOutput_halted (s : State) : s.clearOutput.halted = s.halted := rfl
@[simp] theorem State.clearOutput_acc (s : State) : s.clearOutput.acc = s.acc := rfl
@[simp] theorem State.clearOutput_out (s : State) : s.clearOutput.out = [] := rfl
@[simp] theorem State.clearOutput_trace (s : State) : s.clearOutput.trace = s.trace ++ [.clear] := rfl
@[simp] theorem State.clearOutput_program (s : State) : s.clearOutput.program = s.program := rfl

@[simp] theorem Slots.set_r0_r0 (r : Slots) (v : Byte) : (r.set .r0 v).r0 = v := rfl
@[simp] theorem Slots.set_r0_r1 (r : Slots) (v : Byte) : (r.set .r0 v).r1 = r.r1 := rfl
@[simp] theorem Slots.set_r0_r2 (r : Slots) (v : Byte) : (r.set .r0 v).r2 = r.r2 := rfl
@[simp] theorem Slots.set_r0_r3 (r : Slots) (v : Byte) : (r.set .r0 v).r3 = r.r3 := rfl
@[simp] theorem Slots.set_r0_r4 (r : Slots) (v : Byte) : (r.set .r0 v).r4 = r.r4 := rfl
@[simp] theorem Slots.set_r0_r5 (r : Slots) (v : Byte) : (r.set .r0 v).r5 = r.r5 := rfl
@[simp] theorem Slots.set_r0_r6 (r : Slots) (v : Byte) : (r.set .r0 v).r6 = r.r6 := rfl
@[simp] theorem Slots.set_r0_r7 (r : Slots) (v : Byte) : (r.set .r0 v).r7 = r.r7 := rfl
@[simp] theorem Slots.set_r1_r0 (r : Slots) (v : Byte) : (r.set .r1 v).r0 = r.r0 := rfl
@[simp] theorem Slots.set_r1_r1 (r : Slots) (v : Byte) : (r.set .r1 v).r1 = v := rfl
@[simp] theorem Slots.set_r1_r2 (r : Slots) (v : Byte) : (r.set .r1 v).r2 = r.r2 := rfl
@[simp] theorem Slots.set_r1_r3 (r : Slots) (v : Byte) : (r.set .r1 v).r3 = r.r3 := rfl
@[simp] theorem Slots.set_r1_r4 (r : Slots) (v : Byte) : (r.set .r1 v).r4 = r.r4 := rfl
@[simp] theorem Slots.set_r1_r5 (r : Slots) (v : Byte) : (r.set .r1 v).r5 = r.r5 := rfl
@[simp] theorem Slots.set_r1_r6 (r : Slots) (v : Byte) : (r.set .r1 v).r6 = r.r6 := rfl
@[simp] theorem Slots.set_r1_r7 (r : Slots) (v : Byte) : (r.set .r1 v).r7 = r.r7 := rfl
@[simp] theorem Slots.set_r2_r0 (r : Slots) (v : Byte) : (r.set .r2 v).r0 = r.r0 := rfl
@[simp] theorem Slots.set_r2_r1 (r : Slots) (v : Byte) : (r.set .r2 v).r1 = r.r1 := rfl
@[simp] theorem Slots.set_r2_r2 (r : Slots) (v : Byte) : (r.set .r2 v).r2 = v := rfl
@[simp] theorem Slots.set_r2_r3 (r : Slots) (v : Byte) : (r.set .r2 v).r3 = r.r3 := rfl
@[simp] theorem Slots.set_r2_r4 (r : Slots) (v : Byte) : (r.set .r2 v).r4 = r.r4 := rfl
@[simp] theorem Slots.set_r2_r5 (r : Slots) (v : Byte) : (r.set .r2 v).r5 = r.r5 := rfl
@[simp] theorem Slots.set_r2_r6 (r : Slots) (v : Byte) : (r.set .r2 v).r6 = r.r6 := rfl
@[simp] theorem Slots.set_r2_r7 (r : Slots) (v : Byte) : (r.set .r2 v).r7 = r.r7 := rfl
@[simp] theorem Slots.set_r3_r0 (r : Slots) (v : Byte) : (r.set .r3 v).r0 = r.r0 := rfl
@[simp] theorem Slots.set_r3_r1 (r : Slots) (v : Byte) : (r.set .r3 v).r1 = r.r1 := rfl
@[simp] theorem Slots.set_r3_r2 (r : Slots) (v : Byte) : (r.set .r3 v).r2 = r.r2 := rfl
@[simp] theorem Slots.set_r3_r3 (r : Slots) (v : Byte) : (r.set .r3 v).r3 = v := rfl
@[simp] theorem Slots.set_r3_r4 (r : Slots) (v : Byte) : (r.set .r3 v).r4 = r.r4 := rfl
@[simp] theorem Slots.set_r3_r5 (r : Slots) (v : Byte) : (r.set .r3 v).r5 = r.r5 := rfl
@[simp] theorem Slots.set_r3_r6 (r : Slots) (v : Byte) : (r.set .r3 v).r6 = r.r6 := rfl
@[simp] theorem Slots.set_r3_r7 (r : Slots) (v : Byte) : (r.set .r3 v).r7 = r.r7 := rfl
@[simp] theorem Slots.set_r4_r0 (r : Slots) (v : Byte) : (r.set .r4 v).r0 = r.r0 := rfl
@[simp] theorem Slots.set_r4_r1 (r : Slots) (v : Byte) : (r.set .r4 v).r1 = r.r1 := rfl
@[simp] theorem Slots.set_r4_r2 (r : Slots) (v : Byte) : (r.set .r4 v).r2 = r.r2 := rfl
@[simp] theorem Slots.set_r4_r3 (r : Slots) (v : Byte) : (r.set .r4 v).r3 = r.r3 := rfl
@[simp] theorem Slots.set_r4_r4 (r : Slots) (v : Byte) : (r.set .r4 v).r4 = v := rfl
@[simp] theorem Slots.set_r4_r5 (r : Slots) (v : Byte) : (r.set .r4 v).r5 = r.r5 := rfl
@[simp] theorem Slots.set_r4_r6 (r : Slots) (v : Byte) : (r.set .r4 v).r6 = r.r6 := rfl
@[simp] theorem Slots.set_r4_r7 (r : Slots) (v : Byte) : (r.set .r4 v).r7 = r.r7 := rfl
@[simp] theorem Slots.set_r5_r0 (r : Slots) (v : Byte) : (r.set .r5 v).r0 = r.r0 := rfl
@[simp] theorem Slots.set_r5_r1 (r : Slots) (v : Byte) : (r.set .r5 v).r1 = r.r1 := rfl
@[simp] theorem Slots.set_r5_r2 (r : Slots) (v : Byte) : (r.set .r5 v).r2 = r.r2 := rfl
@[simp] theorem Slots.set_r5_r3 (r : Slots) (v : Byte) : (r.set .r5 v).r3 = r.r3 := rfl
@[simp] theorem Slots.set_r5_r4 (r : Slots) (v : Byte) : (r.set .r5 v).r4 = r.r4 := rfl
@[simp] theorem Slots.set_r5_r5 (r : Slots) (v : Byte) : (r.set .r5 v).r5 = v := rfl
@[simp] theorem Slots.set_r5_r6 (r : Slots) (v : Byte) : (r.set .r5 v).r6 = r.r6 := rfl
@[simp] theorem Slots.set_r5_r7 (r : Slots) (v : Byte) : (r.set .r5 v).r7 = r.r7 := rfl
@[simp] theorem Slots.set_r6_r0 (r : Slots) (v : Byte) : (r.set .r6 v).r0 = r.r0 := rfl
@[simp] theorem Slots.set_r6_r1 (r : Slots) (v : Byte) : (r.set .r6 v).r1 = r.r1 := rfl
@[simp] theorem Slots.set_r6_r2 (r : Slots) (v : Byte) : (r.set .r6 v).r2 = r.r2 := rfl
@[simp] theorem Slots.set_r6_r3 (r : Slots) (v : Byte) : (r.set .r6 v).r3 = r.r3 := rfl
@[simp] theorem Slots.set_r6_r4 (r : Slots) (v : Byte) : (r.set .r6 v).r4 = r.r4 := rfl
@[simp] theorem Slots.set_r6_r5 (r : Slots) (v : Byte) : (r.set .r6 v).r5 = r.r5 := rfl
@[simp] theorem Slots.set_r6_r6 (r : Slots) (v : Byte) : (r.set .r6 v).r6 = v := rfl
@[simp] theorem Slots.set_r6_r7 (r : Slots) (v : Byte) : (r.set .r6 v).r7 = r.r7 := rfl
@[simp] theorem Slots.set_r7_r0 (r : Slots) (v : Byte) : (r.set .r7 v).r0 = r.r0 := rfl
@[simp] theorem Slots.set_r7_r1 (r : Slots) (v : Byte) : (r.set .r7 v).r1 = r.r1 := rfl
@[simp] theorem Slots.set_r7_r2 (r : Slots) (v : Byte) : (r.set .r7 v).r2 = r.r2 := rfl
@[simp] theorem Slots.set_r7_r3 (r : Slots) (v : Byte) : (r.set .r7 v).r3 = r.r3 := rfl
@[simp] theorem Slots.set_r7_r4 (r : Slots) (v : Byte) : (r.set .r7 v).r4 = r.r4 := rfl
@[simp] theorem Slots.set_r7_r5 (r : Slots) (v : Byte) : (r.set .r7 v).r5 = r.r5 := rfl
@[simp] theorem Slots.set_r7_r6 (r : Slots) (v : Byte) : (r.set .r7 v).r6 = r.r6 := rfl
@[simp] theorem Slots.set_r7_r7 (r : Slots) (v : Byte) : (r.set .r7 v).r7 = v := rfl

@[simp] theorem Slots.get_r0 (r : Slots) : r.get .r0 = r.r0 := rfl
@[simp] theorem Slots.get_r1 (r : Slots) : r.get .r1 = r.r1 := rfl
@[simp] theorem Slots.get_r2 (r : Slots) : r.get .r2 = r.r2 := rfl
@[simp] theorem Slots.get_r3 (r : Slots) : r.get .r3 = r.r3 := rfl
@[simp] theorem Slots.get_r4 (r : Slots) : r.get .r4 = r.r4 := rfl
@[simp] theorem Slots.get_r5 (r : Slots) : r.get .r5 = r.r5 := rfl
@[simp] theorem Slots.get_r6 (r : Slots) : r.get .r6 = r.r6 := rfl
@[simp] theorem Slots.get_r7 (r : Slots) : r.get .r7 = r.r7 := rfl

/-- Reading a slot after a raw store into one. -/
theorem Slots.get_set (r : Slots) (i j : Reg) (v : Byte) : (r.set i v).get j = if j = i then v else r.get j := by
  cases i <;> cases j <;> rfl

/-- Two register files with equal slots are equal. -/
theorem Slots.ext_get {r q : Slots} (h : ∀ i, r.get i = q.get i) : r = q := by
  obtain ⟨a0, a1, a2, a3, a4, a5, a6, a7⟩ := r
  obtain ⟨b0, b1, b2, b3, b4, b5, b6, b7⟩ := q
  have e0 := h .r0; have e1 := h .r1; have e2 := h .r2; have e3 := h .r3
  have e4 := h .r4; have e5 := h .r5; have e6 := h .r6; have e7 := h .r7
  simp only [Slots.get] at e0 e1 e2 e3 e4 e5 e6 e7
  subst e0 e1 e2 e3 e4 e5 e6 e7
  rfl

end Sys2Proof.Machine
end

