-- ==== Sys2Proof/Laws/Ops.lean ====
section
/-! SUPPORT. What each shared operation can do, said once, for proofs to cite instead of unfolding it. -/

namespace Sys2Proof.Machine

/-- MemRead after MemWrite (rule R41). -/
theorem State.memRead_memWrite (s : State) (addr v a : Byte) :
    (s.memWrite addr v).memRead a = if a = addr then v else s.memRead a := by
  unfold State.memRead State.memWrite
  split
  · rename_i h; rw [h]; exact Memory.read_write_same _ _ _
  · rename_i h
    exact Memory.read_write_other _ _ _ _ fun e => h (BitVec.eq_of_toNat_eq e)

/-- MemRead looks at the memory alone. -/
theorem State.memRead_congr {s t : State} (h : s.mem = t.mem) (a : Byte) : s.memRead a = t.memRead a := by
  simp only [State.memRead, h]

/-- RegRead (rule R12), with the redirection of index 5. -/
theorem State.regRead_eq (s : State) (i : Reg) :
    s.regRead i = if i = .r5 then s.memRead s.regs.r4 else s.regs.get i := by
  cases i <;> rfl

/-- RegWrite (rule R13): every slot after it. -/
theorem State.regWrite_get (s : State) (i : Reg) (v : Byte) (j : Reg) :
    (s.regWrite i v).regs.get j =
      if j = .r5 ∧ i = .r4 then s.memRead v
      else if j = i ∧ i ≠ .r5 ∧ i ≠ .r6 then v else s.regs.get j := by
  cases i <;> cases j <;> rfl

/-- RegWrite (rule R13): every memory cell after it. -/
theorem State.regWrite_memRead (s : State) (i : Reg) (v a : Byte) :
    (s.regWrite i v).memRead a = if i = .r5 ∧ a = s.regs.r4 then v else s.memRead a := by
  cases i
  case r5 => exact (State.memRead_memWrite s s.regs.r4 v a).trans (by simp)
  all_goals rfl

/-- RegWrite keeps the canonical form of memory. -/
theorem State.regWrite_wf (s : State) (i : Reg) (v : Byte) (h : Memory.wf s.mem = true) :
    Memory.wf (s.regWrite i v).mem = true := by
  cases i
  case r5 => exact Memory.wf_write _ _ _ h (address_lt_memSize _)
  all_goals exact h

@[simp] theorem State.regWrite_stack (s : State) (i : Reg) (v : Byte) : (s.regWrite i v).stack = s.stack := by
  cases i <;> rfl
@[simp] theorem State.regWrite_halted (s : State) (i : Reg) (v : Byte) : (s.regWrite i v).halted = s.halted := by
  cases i <;> rfl
@[simp] theorem State.regWrite_acc (s : State) (i : Reg) (v : Byte) : (s.regWrite i v).acc = s.acc := by
  cases i <;> rfl
@[simp] theorem State.regWrite_out (s : State) (i : Reg) (v : Byte) : (s.regWrite i v).out = s.out := by
  cases i <;> rfl
@[simp] theorem State.regWrite_trace (s : State) (i : Reg) (v : Byte) : (s.regWrite i v).trace = s.trace := by
  cases i <;> rfl
@[simp] theorem State.regWrite_program (s : State) (i : Reg) (v : Byte) : (s.regWrite i v).program = s.program := by
  cases i <;> rfl

/-- Pop (rule R21): the top and the state without it, or nothing. -/
theorem State.pop?_cases (s : State) :
    (s.stack = [] ∧ s.pop? = none)
      ∨ (∃ v rest, s.stack = v :: rest ∧ s.pop? = some (v, { s with stack := rest })) := by
  unfold State.pop?
  cases h : s.stack with
  | nil => exact .inl ⟨rfl, rfl⟩
  | cons v rest => exact .inr ⟨v, rest, rfl, rfl⟩

/-- A COND instruction's end (rule R110). -/
theorem State.branch_cases (s : State) (taken : Bool) (t : Byte) :
    (taken = true ∧ s.branch taken t = s.jump t) ∨ (taken = false ∧ s.branch taken t = s.advancePC) := by
  cases taken
  · exact .inr ⟨rfl, rfl⟩
  · exact .inl ⟨rfl, rfl⟩

/-- The exchange of rule R132: every slot after it. -/
theorem State.swapSlots_get (s : State) (i j k : Reg) :
    (s.swapSlots i j).regs.get k =
      if i = .r6 ∨ j = .r6 then s.regs.get k
      else if k = j then s.regs.get i else if k = i then s.regs.get j else s.regs.get k := by
  unfold State.swapSlots
  split
  · rfl
  · simp only [State.setSlot_regs, Slots.get_set]

/-- The exchange changes slots only: no memory, no stack, no output. -/
theorem State.swapSlots_frame (s : State) (i j : Reg) :
    (s.swapSlots i j) = { s with regs := (s.swapSlots i j).regs } := by
  unfold State.swapSlots
  split <;> rfl

/-- WriteUtf8 (rule R151), for any decoder: cleared, emitted, or held back. -/
theorem writeUtf8With_cases (decoder : List Byte → Option Text) (v : Byte) (s : State) :
    (v = 0 ∧ writeUtf8With decoder v s = { s with acc := [], out := [], trace := s.trace ++ [.clear] })
      ∨ (∃ x, v ≠ 0 ∧ decoder (s.acc ++ [v]) = some x ∧ writeUtf8With decoder v s =
          { s with acc := [], out := s.out ++ x, trace := s.trace ++ [.emit x] })
      ∨ (v ≠ 0 ∧ decoder (s.acc ++ [v]) = none ∧ writeUtf8With decoder v s = { s with acc := s.acc ++ [v] }) := by
  unfold writeUtf8With
  by_cases h : v = 0
  · exact .inl ⟨h, by rw [if_pos h]; rfl⟩
  · rw [if_neg h]
    cases hd : decoder (s.acc ++ [v]) with
    | none => exact .inr (.inr ⟨h, rfl, rfl⟩)
    | some x => exact .inr (.inl ⟨x, h, rfl, rfl⟩)

/-- What a WRT may do to the state before its advance (rules R150 to R155), for any decoder: the streaming unit on format 0,
else one Emit of one character. -/
theorem State.writeWith_cases (decoder : List Byte → Option Text) (s : State) (v f : Byte) :
    s.writeWith decoder v f = writeUtf8With decoder v s
      ∨ s.writeWith decoder v f = s.emit (decDigit v) ∨ s.writeWith decoder v f = s.emit (letter v)
      ∨ s.writeWith decoder v f = s.emit (hexDigit v) := by
  unfold State.writeWith
  split <;> simp

/-- The same with the default decoder. -/
theorem State.write_cases (s : State) (v f : Byte) :
    s.write v f = writeUtf8 v s
      ∨ s.write v f = s.emit (decDigit v) ∨ s.write v f = s.emit (letter v) ∨ s.write v f = s.emit (hexDigit v) :=
  s.writeWith_cases utf8Decode v f

/-- The register a byte names, by the number its low 3 bits make (rules R14 and R64). -/
theorem regOf_eq (b : Byte) :
    regOf b =
      match b.toNat % 8 with
      | 0 => .r0
      | 1 => .r1
      | 2 => .r2
      | 3 => .r3
      | 4 => .r4
      | 5 => .r5
      | 6 => .r6
      | _ => .r7 := by
  revert b; decide

/-- A slot by the number of its index byte. -/
theorem Slots.get_regOf (r : Slots) (b : Byte) :
    r.get (regOf b) = [r.r0, r.r1, r.r2, r.r3, r.r4, r.r5, r.r6, r.r7].getD (b.toNat % 8) 0 := by
  have h : b.toNat % 8 < 8 := Nat.mod_lt _ (by decide)
  rw [regOf_eq]
  generalize b.toNat % 8 = k at h
  interval_cases k <;> rfl

/-- The format a selector byte names, by the number its low 2 bits make (rule R150), for any decoder. -/
theorem State.writeWith_eq (decoder : List Byte → Option Text) (s : State) (v f : Byte) :
    s.writeWith decoder v f =
      if f.toNat % 4 = 0 then writeUtf8With decoder v s
      else if f.toNat % 4 = 1 then s.emit (decDigit v)
      else if f.toNat % 4 = 2 then s.emit (letter v)
      else s.emit (hexDigit v) := by
  have h : f.toNat % 4 = (f.getLsbD 1).toNat * 2 + (f.getLsbD 0).toNat := by revert f; decide
  rw [h]
  unfold State.writeWith
  cases f.getLsbD 1 <;> cases f.getLsbD 0 <;> rfl

/-- The same with the default decoder. -/
theorem State.write_eq (s : State) (v f : Byte) :
    s.write v f =
      if f.toNat % 4 = 0 then writeUtf8 v s
      else if f.toNat % 4 = 1 then s.emit (decDigit v)
      else if f.toNat % 4 = 2 then s.emit (letter v)
      else s.emit (hexDigit v) :=
  s.writeWith_eq utf8Decode v f

/-- A WRT leaves everything but the output unit alone, its advance apart (rule R150), for any decoder. -/
theorem State.writeWith_frame (decoder : List Byte → Option Text) (s : State) (v f : Byte) :
    s.writeWith decoder v f =
      { s with
        acc := (s.writeWith decoder v f).acc
        out := (s.writeWith decoder v f).out
        trace := (s.writeWith decoder v f).trace } := by
  rcases s.writeWith_cases decoder v f with h | h | h | h <;> rw [h]
  · rcases writeUtf8With_cases decoder v s with ⟨_, e⟩ | ⟨x, _, _, e⟩ | ⟨_, _, e⟩ <;> rw [e]
  all_goals rfl

/-- The same with the default decoder. -/
theorem State.write_frame (s : State) (v f : Byte) :
    s.write v f = { s with acc := (s.write v f).acc, out := (s.write v f).out, trace := (s.write v f).trace } :=
  s.writeWith_frame utf8Decode v f

/-- The decoder at a first byte, row by row (rule R152). -/
theorem scalarsOf_cons (b1 : Byte) (t1 : List Byte) :
    scalarsOf (b1 :: t1) =
      match scalar1 b1 with
      | some c => (scalarsOf t1).map (c :: ·)
      | none =>
        match t1 with
        | [] => none
        | b2 :: t2 =>
          match scalar2 b1 b2 with
          | some c => (scalarsOf t2).map (c :: ·)
          | none =>
            match t2 with
            | [] => none
            | b3 :: t3 =>
              match scalar3 b1 b2 b3 with
              | some c => (scalarsOf t3).map (c :: ·)
              | none =>
                match t3 with
                | [] => none
                | b4 :: t4 =>
                  match scalar4 b1 b2 b3 b4 with
                  | some c => (scalarsOf t4).map (c :: ·)
                  | none => none :=
  scalarsOf.eq_def (b1 :: t1)

end Sys2Proof.Machine
end

