-- ==== Sys2Proof/Laws/PerInstr.lean ====
section
/-! SUPPORT. The statements made instruction by instruction. -/

namespace Sys2Proof.Laws

/-- The row number of an instruction in the opcode map, class and subtype as one number (rule R66), 24 for class 3. -/
def rowNumber : Instr → Nat
  | .and _ _ _ => 0
  | .ror _ _ _ => 1
  | .add _ _ _ => 2
  | .xor _ _ _ => 3
  | .or _ _ _ => 4
  | .rol _ _ _ => 5
  | .sub _ _ _ => 6
  | .not _ _ => 7
  | .jmp _ => 8
  | .jne _ _ _ => 9
  | .jge _ _ _ => 10
  | .jgt _ _ _ => 11
  | .nop => 12
  | .jeq _ _ _ => 13
  | .jlt _ _ _ => 14
  | .jle _ _ _ => 15
  | .mov _ _ => 16
  | .swap _ _ => 17
  | .push _ => 18
  | .pop _ => 19
  | .wrt _ _ => 20
  | .call _ => 21
  | .jre => 22
  | .hcf => 23
  | .class3 => 24

/-- An instruction encodes as four bytes, the first of which holds its row's class and subtype and a clear bit 7. -/
def EncodesItsRow.Statement (i : Instr) : Prop :=
  (encode i).length = 4 ∧ (encodeWord i).opcode.toNat % 32 = rowNumber i ∧ (encodeWord i).opcode.getLsbD 7 = false

theorem EncodesItsRow.and (a : Operand) (b : Operand) (d : Byte) : EncodesItsRow.Statement (.and a b d) :=
  ⟨rfl, opcodeByte_row _ _ _ _, opcodeByte_bit7 _ _ _ _⟩

theorem EncodesItsRow.ror (a : Operand) (b : Operand) (d : Byte) : EncodesItsRow.Statement (.ror a b d) :=
  ⟨rfl, opcodeByte_row _ _ _ _, opcodeByte_bit7 _ _ _ _⟩

theorem EncodesItsRow.add (a : Operand) (b : Operand) (d : Byte) : EncodesItsRow.Statement (.add a b d) :=
  ⟨rfl, opcodeByte_row _ _ _ _, opcodeByte_bit7 _ _ _ _⟩

theorem EncodesItsRow.xor (a : Operand) (b : Operand) (d : Byte) : EncodesItsRow.Statement (.xor a b d) :=
  ⟨rfl, opcodeByte_row _ _ _ _, opcodeByte_bit7 _ _ _ _⟩

theorem EncodesItsRow.or (a : Operand) (b : Operand) (d : Byte) : EncodesItsRow.Statement (.or a b d) :=
  ⟨rfl, opcodeByte_row _ _ _ _, opcodeByte_bit7 _ _ _ _⟩

theorem EncodesItsRow.rol (a : Operand) (b : Operand) (d : Byte) : EncodesItsRow.Statement (.rol a b d) :=
  ⟨rfl, opcodeByte_row _ _ _ _, opcodeByte_bit7 _ _ _ _⟩

theorem EncodesItsRow.sub (a : Operand) (b : Operand) (d : Byte) : EncodesItsRow.Statement (.sub a b d) :=
  ⟨rfl, opcodeByte_row _ _ _ _, opcodeByte_bit7 _ _ _ _⟩

theorem EncodesItsRow.not (a : Operand) (d : Byte) : EncodesItsRow.Statement (.not a d) :=
  ⟨rfl, opcodeByte_row _ _ _ _, opcodeByte_bit7 _ _ _ _⟩

theorem EncodesItsRow.jmp (t : Byte) : EncodesItsRow.Statement (.jmp t) :=
  ⟨rfl, opcodeByte_row _ _ _ _, opcodeByte_bit7 _ _ _ _⟩

theorem EncodesItsRow.jne (a : Operand) (b : Operand) (t : Byte) : EncodesItsRow.Statement (.jne a b t) :=
  ⟨rfl, opcodeByte_row _ _ _ _, opcodeByte_bit7 _ _ _ _⟩

theorem EncodesItsRow.jge (a : Operand) (b : Operand) (t : Byte) : EncodesItsRow.Statement (.jge a b t) :=
  ⟨rfl, opcodeByte_row _ _ _ _, opcodeByte_bit7 _ _ _ _⟩

theorem EncodesItsRow.jgt (a : Operand) (b : Operand) (t : Byte) : EncodesItsRow.Statement (.jgt a b t) :=
  ⟨rfl, opcodeByte_row _ _ _ _, opcodeByte_bit7 _ _ _ _⟩

theorem EncodesItsRow.nop : EncodesItsRow.Statement .nop :=
  ⟨rfl, opcodeByte_row _ _ _ _, opcodeByte_bit7 _ _ _ _⟩

theorem EncodesItsRow.jeq (a : Operand) (b : Operand) (t : Byte) : EncodesItsRow.Statement (.jeq a b t) :=
  ⟨rfl, opcodeByte_row _ _ _ _, opcodeByte_bit7 _ _ _ _⟩

theorem EncodesItsRow.jlt (a : Operand) (b : Operand) (t : Byte) : EncodesItsRow.Statement (.jlt a b t) :=
  ⟨rfl, opcodeByte_row _ _ _ _, opcodeByte_bit7 _ _ _ _⟩

theorem EncodesItsRow.jle (a : Operand) (b : Operand) (t : Byte) : EncodesItsRow.Statement (.jle a b t) :=
  ⟨rfl, opcodeByte_row _ _ _ _, opcodeByte_bit7 _ _ _ _⟩

theorem EncodesItsRow.mov (a : Operand) (d : Byte) : EncodesItsRow.Statement (.mov a d) :=
  ⟨rfl, opcodeByte_row _ _ _ _, opcodeByte_bit7 _ _ _ _⟩

theorem EncodesItsRow.swap (x : Byte) (y : Byte) : EncodesItsRow.Statement (.swap x y) :=
  ⟨rfl, opcodeByte_row _ _ _ _, opcodeByte_bit7 _ _ _ _⟩

theorem EncodesItsRow.push (a : Operand) : EncodesItsRow.Statement (.push a) :=
  ⟨rfl, opcodeByte_row _ _ _ _, opcodeByte_bit7 _ _ _ _⟩

theorem EncodesItsRow.pop (d : Byte) : EncodesItsRow.Statement (.pop d) :=
  ⟨rfl, opcodeByte_row _ _ _ _, opcodeByte_bit7 _ _ _ _⟩

theorem EncodesItsRow.wrt (a : Operand) (f : Operand) : EncodesItsRow.Statement (.wrt a f) :=
  ⟨rfl, opcodeByte_row _ _ _ _, opcodeByte_bit7 _ _ _ _⟩

theorem EncodesItsRow.call (a : Operand) : EncodesItsRow.Statement (.call a) :=
  ⟨rfl, opcodeByte_row _ _ _ _, opcodeByte_bit7 _ _ _ _⟩

theorem EncodesItsRow.jre : EncodesItsRow.Statement .jre :=
  ⟨rfl, opcodeByte_row _ _ _ _, opcodeByte_bit7 _ _ _ _⟩

theorem EncodesItsRow.hcf : EncodesItsRow.Statement .hcf :=
  ⟨rfl, opcodeByte_row _ _ _ _, opcodeByte_bit7 _ _ _ _⟩

theorem EncodesItsRow.class3 : EncodesItsRow.Statement .class3 :=
  ⟨rfl, opcodeByte_row _ _ _ _, opcodeByte_bit7 _ _ _ _⟩

end Sys2Proof.Laws
end

