-- ==== Sys2Proof/Laws/Run.lean ====
section
/-! SUPPORT. What a step can do, said once for any executor; repeated steps are the host's own run, for any decoder. -/

namespace Sys2Proof.Machine

/-- What a step can do, whatever executes the instructions (rule R69). -/
theorem stepBy_cases (execute : Instr → State → Host.Outcome State Fault Refusal) (s : State) :
    (s.halted = true ∧ stepBy execute s = .next s)
      ∨ (s.halted = false ∧ fetchWord s.program s.regs.r7 = none ∧ stepBy execute s = .next s.halt)
      ∨ ∃ w, s.halted = false ∧ fetchWord s.program s.regs.r7 = some w
          ∧ stepBy execute s = execute (decodeWord w) s := by
  unfold stepBy State.pc
  cases hh : s.halted with
  | true => exact .inl ⟨rfl, rfl⟩
  | false =>
    cases hf : fetchWord s.program s.regs.r7 with
    | none => exact .inr (.inl ⟨rfl, rfl, rfl⟩)
    | some w => exact .inr (.inr ⟨w, rfl, rfl, rfl⟩)

/-- A decoder reaches an instruction only if it is a WRT. -/
theorem execWith_cases (decoder : List Byte → Option Text) (i : Instr) (s : State) :
    (∃ a f, i = .wrt a f ∧ execWith decoder i s = execWrtWith decoder a f s)
      ∨ ((∀ a f, i ≠ .wrt a f) ∧ execWith decoder i s = exec i s) := by
  cases i
  case wrt a f => exact .inl ⟨a, f, rfl, rfl⟩
  all_goals exact .inr ⟨fun _ _ h => (by cases h), rfl⟩

/-- One more step. -/
theorem stepNBy_succ (step : State → Host.Outcome State Fault Refusal) (n : Nat) (s : State) :
    stepNBy step (n + 1) s =
      match step s with
      | .next t => stepNBy step n t
      | .fault r => .fault r
      | .refused r => .refused r := rfl

/-- One more step of the machine. -/
theorem stepN_succ (n : Nat) (s : State) :
    stepN (n + 1) s =
      match step s with
      | .next t => stepN n t
      | .fault r => .fault r
      | .refused r => .refused r := rfl

/-- The host's run of any core, after a step that goes on. -/
theorem core_run_next (M : Host.Core) (n : Nat) (s t : M.State) (h : M.step s = .next t) :
    M.run (n + 1) s = M.run n t := by
  simp only [Host.Core.run, h]

/-- The host's run of any core, after a fault. -/
theorem core_run_fault (M : Host.Core) (n : Nat) (s : M.State) (r : M.Fault) (h : M.step s = .fault r) :
    M.run (n + 1) s = .fault r := by
  simp only [Host.Core.run, h]

/-- The host's run of any core, after a refusal. -/
theorem core_run_refused (M : Host.Core) (n : Nat) (s : M.State) (r : M.Refusal) (h : M.step s = .refused r) :
    M.run (n + 1) s = .refused r := by
  simp only [Host.Core.run, h]

/-- Repeated steps are what the host's `Host.Core.run` does with this core. -/
theorem core_run_eq_stepN (n : Nat) : ∀ s : State, Host.Core.run Sys2Proof.core n s = stepN n s := by
  induction n with
  | zero => exact fun _ => rfl
  | succ n ih =>
    intro s
    rw [stepN_succ]
    cases h : step s with
    | next t => exact (core_run_next Sys2Proof.core n s t h).trans (ih t)
    | fault r => exact core_run_fault Sys2Proof.core n s r h
    | refused r => exact core_run_refused Sys2Proof.core n s r h

/-- And, under any decoder, what it does with that decoder's core. -/
theorem coreWith_run_eq_stepNWith (decoder : List Byte → Option Text) (n : Nat) :
    ∀ s : State, Host.Core.run (coreWith decoder) n s = stepNWith decoder n s := by
  induction n with
  | zero => exact fun _ => rfl
  | succ n ih =>
    intro s
    unfold stepNWith
    rw [stepNBy_succ]
    cases h : stepWith decoder s with
    | next t => exact (core_run_next (coreWith decoder) n s t h).trans (ih t)
    | fault r => exact core_run_fault (coreWith decoder) n s r h
    | refused r => exact core_run_refused (coreWith decoder) n s r h

end Sys2Proof.Machine
end

