-- ==== Sys2Proof/Tests/Slice0.lean ====
section
/-! SUPPORT. The model's own tests: the well-formedness smoke tests, decoding of words written out from the spec, single
steps whose expected values are those of 95_test_vectors.md, the assembler's examples, and a witness for the hypotheses of
every statement that has some. Expected values are the spec's, named by section of 95_test_vectors.md. -/

namespace Sys2Proof.Tests

open Sys2Proof.Machine

/-! ## Helpers -/

/-- The next state of an outcome. -/
def next? : Host.Outcome State Fault Refusal → Option State
  | .next t => some t
  | .fault _ => none
  | .refused _ => none

/-- A state with these slots, cells and stack, and everything else as after reset. -/
def stateOf (regs : Slots) (mem : Memory := []) (stack : List Byte := []) : State :=
  { State.reset with regs := regs, mem := mem, stack := stack }

/-- One step of a state on a word, placed where it is fetched. -/
def after (s : State) (word : Nat) : Option State := next? (step (s.withFetchWord 32 word))

/-- The slots, cells and stack of a state. -/
def view (s : State) : Slots × Memory × List Byte := (s.regs, s.mem, s.stack)

/-- What the output unit holds. -/
def unit (s : State) : List Byte × Text × List OutEvent := (s.acc, s.out, s.trace)

/-- The output unit after a format-0 WRT of each byte in turn, from an empty one. -/
def streamed (bytes : List Byte) : List Byte × Text × List OutEvent :=
  unit (bytes.foldl (fun s b => s.write b 0) State.reset)

/-! ## Well-formedness: each check refuses an ill-formed term -/

theorem test_wf_accepts : WellFormed (.add (.reg 7) (.imm 255) 7) ∧ WellFormed (.swap 0 7) ∧ WellFormed (.jmp 255) := by
  decide
theorem test_wf_refuses_alu_operand1 : ¬ WellFormed (.and (.reg 8) (.imm 0) 0) := by decide
theorem test_wf_refuses_alu_operand2 : ¬ WellFormed (.ror (.imm 0) (.reg 13) 0) := by decide
theorem test_wf_refuses_add_dest : ¬ WellFormed (.add (.imm 2) (.imm 3) 9) := by decide
theorem test_wf_refuses_xor_dest : ¬ WellFormed (.xor (.imm 2) (.imm 3) 8) := by decide
theorem test_wf_refuses_or_operand : ¬ WellFormed (.or (.reg 255) (.imm 3) 0) := by decide
theorem test_wf_refuses_rol_operand2 : ¬ WellFormed (.rol (.imm 1) (.reg 16) 0) := by decide
theorem test_wf_refuses_sub_dest : ¬ WellFormed (.sub (.imm 1) (.imm 1) 128) := by decide
theorem test_wf_refuses_not_operand : ¬ WellFormed (.not (.reg 8) 0) ∧ ¬ WellFormed (.not (.imm 8) 8) := by decide
theorem test_wf_refuses_jne_operand : ¬ WellFormed (.jne (.reg 8) (.imm 0) 0) := by decide
theorem test_wf_refuses_jge_operand : ¬ WellFormed (.jge (.imm 0) (.reg 8) 0) := by decide
theorem test_wf_refuses_jgt_operand : ¬ WellFormed (.jgt (.reg 9) (.imm 0) 0) := by decide
theorem test_wf_refuses_jeq_operand : ¬ WellFormed (.jeq (.imm 0) (.reg 9) 0) := by decide
theorem test_wf_refuses_jlt_operand : ¬ WellFormed (.jlt (.reg 10) (.imm 0) 0) := by decide
theorem test_wf_refuses_jle_operand : ¬ WellFormed (.jle (.imm 0) (.reg 10) 0) := by decide
theorem test_wf_refuses_mov : ¬ WellFormed (.mov (.reg 13) 0) ∧ ¬ WellFormed (.mov (.imm 13) 9) := by decide
theorem test_wf_refuses_swap : ¬ WellFormed (.swap 9 2) ∧ ¬ WellFormed (.swap 1 10) := by decide
theorem test_wf_refuses_push : ¬ WellFormed (.push (.reg 8)) := by decide
theorem test_wf_refuses_pop : ¬ WellFormed (.pop 15) := by decide
theorem test_wf_refuses_wrt : ¬ WellFormed (.wrt (.reg 8) (.imm 0)) ∧ ¬ WellFormed (.wrt (.imm 8) (.reg 8)) := by decide
theorem test_wf_refuses_call : ¬ WellFormed (.call (.reg 8)) := by decide

/-! ## Decoding: every row from a word of the spec -/

/-- AND of 2.1, an operand form of its own: both immediates. -/
theorem test_decode_and : decode [0x60, 0xf0, 0x3c, 0x01] = .ok (.and (.imm 0xf0) (.imm 0x3c) 1, []) := rfl
theorem test_decode_ror : decodeWord ⟨0x61, 0x81, 0x01, 0x02⟩ = .ror (.imm 0x81) (.imm 1) 2 := rfl
/-- ADD of E2 and of E4. -/
theorem test_decode_add : decodeWord ⟨0x02, 0x01, 0x02, 0x03⟩ = .add (.reg 1) (.reg 2) 3
    ∧ decodeWord ⟨0x22, 0x00, 0x03, 0x00⟩ = .add (.reg 0) (.imm 3) 0 := ⟨rfl, rfl⟩
theorem test_decode_xor : decodeWord ⟨0x63, 0xff, 0x0f, 0x01⟩ = .xor (.imm 0xff) (.imm 0x0f) 1 := rfl
theorem test_decode_or : decodeWord ⟨0x44, 0xf0, 0x02, 0x01⟩ = .or (.imm 0xf0) (.reg 2) 1 := rfl
/-- ROL of E1. -/
theorem test_decode_rol : decodeWord ⟨0x25, 0x00, 0x03, 0x01⟩ = .rol (.reg 0) (.imm 3) 1 := rfl
/-- SUB of E2. -/
theorem test_decode_sub : decodeWord ⟨0x06, 0x01, 0x02, 0x03⟩ = .sub (.reg 1) (.reg 2) 3 := rfl
/-- NOT of P4 and of 2.2. -/
theorem test_decode_not : decodeWord ⟨0x67, 0x0f, 0x00, 0x03⟩ = .not (.imm 0x0f) 3
    ∧ decodeWord ⟨0x07, 0x00, 0x05, 0x00⟩ = .not (.reg 0) 0 := ⟨rfl, rfl⟩
/-- JMP of 2.3; the target of `JMP r3` is the byte 3. -/
theorem test_decode_jmp : decodeWord ⟨0x68, 0x00, 0x00, 0xff⟩ = .jmp 0xff ∧ decodeWord ⟨0x68, 0, 0, 3⟩ = .jmp 3 := ⟨rfl, rfl⟩
theorem test_decode_jne : decodeWord ⟨0x09, 0x00, 0x01, 0x09⟩ = .jne (.reg 0) (.reg 1) 9 := rfl
theorem test_decode_jge : decodeWord ⟨0x2a, 0x01, 0x0a, 0x07⟩ = .jge (.reg 1) (.imm 10) 7 := rfl
theorem test_decode_jgt : decodeWord ⟨0x6b, 0x07, 0x03, 0x09⟩ = .jgt (.imm 7) (.imm 3) 9 := rfl
/-- NOP of 2.3, also with junk fields. -/
theorem test_decode_nop : decodeWord ⟨0x6c, 0, 0, 0⟩ = .nop ∧ decodeWord ⟨0x0c, 5, 5, 0xff⟩ = .nop := ⟨rfl, rfl⟩
theorem test_decode_jeq : decodeWord ⟨0x2d, 0x05, 0x00, 0x0c⟩ = .jeq (.reg 5) (.imm 0) 12 := rfl
theorem test_decode_jlt : decodeWord ⟨0x2e, 0x02, 0x64, 0x00⟩ = .jlt (.reg 2) (.imm 100) 0 := rfl
theorem test_decode_jle : decodeWord ⟨0x0f, 0x05, 0x06, 0x07⟩ = .jle (.reg 5) (.reg 6) 7 := rfl
/-- MOV of E9 and, with bit 7 set, of 2.6. -/
theorem test_decode_mov : decodeWord ⟨0x30, 0x01, 0x00, 0x02⟩ = .mov (.reg 1) 2
    ∧ decodeWord ⟨0xf0, 0x2a, 0x00, 0x01⟩ = .mov (.imm 0x2a) 1 := ⟨rfl, rfl⟩
/-- SWAP of 2.4, without and with both flags set. -/
theorem test_decode_swap : decodeWord ⟨0x11, 1, 2, 0⟩ = .swap 1 2 ∧ decodeWord ⟨0x71, 1, 2, 0⟩ = .swap 1 2 := ⟨rfl, rfl⟩
theorem test_decode_push : decodeWord ⟨0x72, 9, 0, 0⟩ = .push (.imm 9) ∧ decodeWord ⟨0x32, 1, 0, 0⟩ = .push (.reg 1) :=
  ⟨rfl, rfl⟩
theorem test_decode_pop : decodeWord ⟨0x73, 0, 0, 7⟩ = .pop 7 := rfl
theorem test_decode_wrt : decodeWord ⟨0x34, 0, 1, 0⟩ = .wrt (.reg 0) (.imm 1)
    ∧ decodeWord ⟨0x14, 5, 1, 0⟩ = .wrt (.reg 5) (.reg 1) := ⟨rfl, rfl⟩
theorem test_decode_call : decodeWord ⟨0x75, 4, 0, 0⟩ = .call (.imm 4) ∧ decodeWord ⟨0x35, 2, 0, 0⟩ = .call (.reg 2) :=
  ⟨rfl, rfl⟩
theorem test_decode_jre : decodeWord ⟨0x76, 0, 0, 0⟩ = .jre ∧ decodeWord ⟨0x16, 0xff, 0xff, 0xff⟩ = .jre := ⟨rfl, rfl⟩
theorem test_decode_hcf : decodeWord ⟨0x77, 0, 0, 0⟩ = .hcf ∧ decodeWord ⟨0xf7, 0, 0, 0⟩ = .hcf := ⟨rfl, rfl⟩
/-- The class 3 words of 2.6. -/
theorem test_decode_class3 : decodeWord ⟨0x18, 1, 2, 3⟩ = .class3 ∧ decodeWord ⟨0x7f, 0xff, 0xff, 0xff⟩ = .class3
    ∧ decodeWord ⟨0x98, 0, 0, 0⟩ = .class3 := ⟨rfl, rfl, rfl⟩
/-- Fewer than four bytes are no instruction. -/
theorem test_decode_truncated : decode [0x77, 0x00, 0x00] = .error .truncatedWord ∧ decode [] = .error .truncatedWord :=
  ⟨rfl, rfl⟩
/-- The table's numbering (D18): the first word byte is the most significant. -/
theorem test_decode_table_word : decodeTableWord 32 0x0D000000 = some (.jeq (.reg 0) (.reg 0) 0)
    ∧ decodeTableWord 32 0x7005ff03 = some (.mov (.imm 5) 3) := by decide
/-- The canonical words of E9. -/
theorem test_encode : encode (.mov (.imm 5) 0) = [0x70, 5, 0, 0] ∧ encode (.pop 7) = [0x73, 0, 0, 7]
    ∧ encode (.call (.reg 2)) = [0x35, 2, 0, 0] ∧ encode .nop = [0x6c, 0, 0, 0] := by decide

/-! ## ALU, 2.1 and 2.2 -/

theorem test_and_immediates : (after State.reset 0x60f03c01).map view = some (⟨0, 0x30, 0, 0, 0, 0, 0, 1⟩, [], []) := by decide
theorem test_ror_vectors :
    [rotateRight 0x81 1, rotateRight 0x81 8, rotateRight 0x01 1, rotateRight 0x96 3, rotateRight 0x96 0x0b, rotateRight 0x96 0xff]
      = [0xc0, 0x81, 0x80, 0xd2, 0xd2, 0x2d] := by decide
theorem test_ror_step : (after State.reset 0x61960303).map (·.regs) = some ⟨0, 0, 0, 0xd2, 0, 0, 0, 1⟩ := by decide
/-- `ADD r1, r2, r3` of E2 wraps. -/
theorem test_add_wraps : (after (stateOf ⟨0, 0xc8, 0x64, 0, 0, 0, 0, 0⟩) 0x02010203).map (·.regs)
    = some ⟨0, 0xc8, 0x64, 0x2c, 0, 0, 0, 1⟩ := by decide
/-- `ADD 2, 3, r5` stores at `regs[4]` and leaves the shadow. -/
theorem test_add_to_memory : (after (stateOf ⟨0, 0, 0, 0, 0x20, 0, 0, 0⟩) 0x62020305).map view
    = some (⟨0, 0, 0, 0, 0x20, 0, 0, 1⟩, [(0x20, 5)], []) := by decide
theorem test_xor_clears : (after State.reset 0x63ff0f02).map (·.regs) = some ⟨0, 0, 0xf0, 0, 0, 0, 0, 1⟩ := by decide
/-- OR into r4 reads the shadow back. -/
theorem test_or_reads_back : (after (stateOf ⟨0, 0, 0, 0, 0, 0, 0, 0⟩ [(5, 0x77)]) 0x64040104).map view
    = some (⟨0, 0, 0, 0, 5, 0x77, 0, 1⟩, [(5, 0x77)], []) := by decide
/-- `ROL r0, 3, r1` of E1. -/
theorem test_rol_example : (after (stateOf ⟨0x81, 0, 0, 0, 0, 0, 0, 0⟩) 0x25000301).map (·.regs)
    = some ⟨0x81, 0x0c, 0, 0, 0, 0, 0, 1⟩ := by decide
theorem test_rol_vectors :
    [rotateLeft 0x81 0, rotateLeft 0x81 8, rotateLeft 0x80 1, rotateLeft 0x96 0x0b, rotateLeft 0x96 0xff, rotateLeft 0x01 7]
      = [0x81, 0x81, 0x01, 0xb4, 0x4b, 0x80] := by decide
/-- `SUB r1, r2, r3` of E2 wraps. -/
theorem test_sub_wraps : (after (stateOf ⟨0, 5, 10, 0, 0, 0, 0, 0⟩) 0x06010203).map (·.regs)
    = some ⟨0, 5, 10, 0xfb, 0, 0, 0, 1⟩ := by decide
/-- At word 255 the advance wraps. -/
theorem test_sub_pc_wraps : (next? (exec (.sub (.reg 0) (.imm 1) 0) (stateOf ⟨0, 0, 0, 0, 0, 0, 0, 0xff⟩))).map (·.regs)
    = some ⟨0xff, 0, 0, 0, 0, 0, 0, 0⟩ := by decide
/-- `NOT r0, r5, r0`: operand2 is ignored. -/
theorem test_not_ignores_operand2 : (after (stateOf ⟨0x0f, 0, 0, 0, 0, 0, 0, 0⟩) 0x07000500).map (·.regs)
    = some ⟨0xf0, 0, 0, 0, 0, 0, 0, 1⟩ := by decide
/-- NOT into r6 is dropped. -/
theorem test_not_to_reserved : (after State.reset 0x670f0006).map view = some (⟨0, 0, 0, 0, 0, 0, 0, 1⟩, [], []) := by decide

/-! ## COND, 2.3, at word 4 -/

/-- The state of 2.3: slots 0 to 2 as given, `pc` at 4. -/
def at4 (r0 r1 r2 : Byte) : State := stateOf ⟨r0, r1, r2, 0, 0, 0, 0, 4⟩

theorem test_jmp : (after (at4 0 0 0) 0x68000005).map (·.regs.r7) = some 5 := by decide
theorem test_jne_not_taken : (after (at4 2 2 0) 0x09000109).map (·.regs.r7) = some 5 := by decide
theorem test_jne_taken : (after (at4 2 3 0) 0x09000109).map (·.regs.r7) = some 9 := by decide
theorem test_jge_unsigned : (after (at4 0 0 0) 0x6a807f03).map (·.regs.r7) = some 3 := by decide
theorem test_jge_equal : (after (at4 0 0 0) 0x6a050503).map (·.regs.r7) = some 3 := by decide
theorem test_jgt_unsigned : (after (at4 0 0 0) 0x6b807f03).map (·.regs.r7) = some 3 := by decide
theorem test_jgt_equal : (after (at4 0 0 0) 0x6b050503).map (·.regs.r7) = some 5 := by decide
theorem test_nop_junk : (after (at4 1 2 3) 0x0c0505ff).map view = some (⟨1, 2, 3, 0, 0, 0, 0, 5⟩, [], []) := by decide
/-- `JEQ r7, 4, 0`: r7 as an operand reads 4. -/
theorem test_jeq_reads_pc : (after (at4 0 0 0) 0x2d070400).map (·.regs.r7) = some 0 := by decide
theorem test_jlt_unsigned : (after (at4 0 0 0) 0x6e807f03).map (·.regs.r7) = some 5 := by decide
theorem test_jlt_taken : (after (at4 0 0 99) 0x2e026400).map (·.regs.r7) = some 0 := by decide
/-- `JLE r5, r6, 7` compares `mem[0x30]` with 0. -/
theorem test_jle_zero : (after (stateOf ⟨0, 0, 0, 0, 0x30, 0, 0, 4⟩) 0x0f050607).map (·.regs.r7) = some 7 := by decide
theorem test_jle_one : (after (stateOf ⟨0, 0, 0, 0, 0x30, 0, 0, 4⟩ [(0x30, 1)]) 0x0f050607).map (·.regs.r7) = some 5 := by decide

/-! ## IO, 2.4 and 2.6 -/

/-- `MOV r5, r4`: the operand is read through the old address, the shadow back through the new. -/
theorem test_mov_pair : (after (stateOf ⟨0, 0, 0, 0, 0, 0, 0, 0⟩ [(0, 9)]) 0x30050004).map (·.regs)
    = some ⟨0, 0, 0, 0, 9, 0, 0, 1⟩ := by decide
/-- Index bytes 8 and 9 act as 0 and 1. -/
theorem test_mov_high_indices : (after (stateOf ⟨0x11, 0, 0, 0, 0, 0, 0, 0⟩) 0x30080009).map (·.regs)
    = some ⟨0x11, 0x11, 0, 0, 0, 0, 0, 1⟩ := by decide
/-- `SWAP r1, r7`: 5 is exchanged in, then the advance. -/
theorem test_swap_pc : (after (stateOf ⟨0, 5, 0, 0, 0, 0, 0, 1⟩) 0x11010700).map (·.regs) = some ⟨0, 1, 0, 0, 0, 0, 0, 6⟩ := by
  decide
/-- `SWAP r5, r1` moves the shadow, not the cell. -/
theorem test_swap_shadow : (after (stateOf ⟨0, 0x7e, 0, 0, 0x10, 0, 0, 0⟩ [(0x10, 0xab)]) 0x11050100).map view
    = some (⟨0, 0, 0, 0, 0x10, 0x7e, 0, 1⟩, [(0x10, 0xab)], []) := by decide
/-- `PUSH r5` pushes the memory cell. -/
theorem test_push_memory : (after (stateOf ⟨0, 0, 0, 0, 7, 0, 0, 0⟩ [(7, 0x63)]) 0x32050000).map (·.stack) = some [0x63] := by
  decide
theorem test_push_pc : (after (stateOf ⟨0, 0, 0, 0, 0, 0, 0, 2⟩) 0x32070000).map view
    = some (⟨0, 0, 0, 0, 0, 0, 0, 3⟩, [], [2]) := by decide
/-- `POP r5` stores the top at `regs[4]`. -/
theorem test_pop_to_memory : (after (stateOf ⟨0, 0, 0, 0, 8, 0, 0, 0⟩ [] [0x42]) 0x73000005).map view
    = some (⟨0, 0, 0, 0, 8, 0, 0, 1⟩, [(8, 0x42)], []) := by decide
theorem test_pop_empty : (after (stateOf ⟨0, 0x33, 0, 0, 0, 0, 0, 0⟩) 0x73000001).map view
    = some (⟨0, 0x33, 0, 0, 0, 0, 0, 1⟩, [], []) := by decide
/-- `CALL r2` at word 1. -/
theorem test_call : (after (stateOf ⟨0, 0, 3, 0, 0, 0, 0, 1⟩) 0x35020000).map view
    = some (⟨0, 0, 3, 0, 0, 0, 0, 3⟩, [], [1]) := by decide
/-- `CALL r7` calls itself. -/
theorem test_call_itself : (after (stateOf ⟨0, 0, 0, 0, 0, 0, 0, 6⟩) 0x35070000).map view
    = some (⟨0, 0, 0, 0, 0, 0, 0, 6⟩, [], [6]) := by decide
/-- `pc = fa` and offset 0a. -/
theorem test_jre_wraps : (next? (exec .jre (stateOf ⟨0x0a, 0, 0, 0, 0, 0, 0, 0xfa⟩))).map (·.regs.r7) = some 0x04 := by decide
/-- `pc = c8` and offset 80, which is -128. -/
theorem test_jre_negative : (next? (exec .jre (stateOf ⟨0x80, 0, 0, 0, 0, 0, 0, 0xc8⟩))).map (·.regs.r7) = some 0x48 := by decide
theorem test_hcf_junk : (after (stateOf ⟨0, 0, 0, 0, 0, 0, 0, 3⟩) 0x17ffffff).map (fun t => (t.halted, t.regs.r7))
    = some (true, 3) := by decide
theorem test_class3 : (after (stateOf ⟨0, 0, 0, 0, 0, 0, 0, 8⟩) 0x18010203).map view
    = some (⟨0, 0, 0, 0, 0, 0, 0, 9⟩, [], []) := by decide

/-! ## The output unit, 2.5 -/

/-- `WRT r5, r1`: the value from memory, the format from a register. -/
theorem test_wrt_fetched_format : (after (stateOf ⟨0, 2, 0, 0, 0, 0, 0, 0⟩) 0x14050100).map unit
    = some ([], [0x41], [.emit [0x41]]) := by decide
/-- `WRT 7, 0xFE` is format 2. -/
theorem test_wrt_format_bits : (after State.reset 0x7407fe00).map unit = some ([], [0x48], [.emit [0x48]]) := by decide
theorem test_decimal_digits : [decDigit 0, decDigit 9, decDigit 10, decDigit 255] = [[0x30], [0x39], [0x3f], [0x3f]] := by decide
theorem test_letters : [letter 0, letter 25, letter 26, letter 65] = [[0x41], [0x5a], [0x3f], [0x3f]] := by decide
theorem test_hex_digits : [hexDigit 0, hexDigit 9, hexDigit 10, hexDigit 15, hexDigit 16]
    = [[0x30], [0x39], [0x41], [0x46], [0x3f]] := by decide
theorem test_utf8_two : [utf8Decode [0xc3, 0xa9], utf8Decode [0xc2, 0x80], utf8Decode [0xdf, 0xbf], utf8Decode [0xc1, 0xbf]]
    = [some [0xe9], some [0x80], some [0x7ff], none] := by decide
theorem test_utf8_three : [utf8Decode [0xe2, 0x82, 0xac], utf8Decode [0xe0, 0xa0, 0x80], utf8Decode [0xed, 0x9f, 0xbf],
      utf8Decode [0xef, 0xbb, 0xbf]] = [some [0x20ac], some [0x800], some [0xd7ff], some [0xfeff]] := by decide
theorem test_utf8_refused : [utf8Decode [0x80], utf8Decode [0xe0, 0x80, 0x80], utf8Decode [0xed, 0xa0, 0x80]]
    = [none, none, none] := by decide
theorem test_utf8_four : [utf8Decode [0xf0, 0x9f, 0x98, 0x80], utf8Decode [0xf4, 0x8f, 0xbf, 0xbf],
      utf8Decode [0xf4, 0x90, 0x80, 0x80], utf8Decode [0xf5, 0x80, 0x80, 0x80]]
    = [some [0x1f600], some [0x10ffff], none, none] := by decide
theorem test_stream_broken : streamed [0xc3, 0x41, 0x41] = ([0xc3, 0x41, 0x41], [], []) := by decide
theorem test_stream_clear : streamed [0x41, 0xc3, 0x00, 0x42] = ([], [0x42], [.emit [0x41], .clear, .emit [0x42]]) := by decide

/-! ## Fetch, halting and the host, 2.7 -/

/-- The empty program halts at once and changes nothing else. -/
theorem test_fetch_empty : next? (step State.reset) = some { State.reset with halted := true } := by decide
/-- A partial last word halts. -/
theorem test_fetch_partial : (next? (step { State.load [0x6c, 0, 0, 0, 0x77, 0] with regs := ⟨0, 0, 0, 0, 0, 0, 0, 1⟩ })).map
    (fun t => (t.halted, t.regs.r7)) = some (true, 1) := by decide
theorem test_halted_step : next? (step { State.load [0x70, 5, 0, 0] with halted := true })
    = some { State.load [0x70, 5, 0, 0] with halted := true } := by decide
theorem test_placed_word : (after State.reset 0x70050000).map (·.regs.r0) = some 5 := by decide
/-- The host sees the stack bottom first and 256 cells. -/
theorem test_observe : (stateOf ⟨1, 2, 3, 4, 5, 6, 0, 8⟩ [] [9, 10]).observe.stack = [10, 9]
    ∧ (stateOf ⟨1, 2, 3, 4, 5, 6, 0, 8⟩).observe.regs = [1, 2, 3, 4, 5, 6, 0, 8]
    ∧ State.reset.observe.mem.length = 256 :=
  ⟨rfl, rfl, by rw [State.observe, List.length_map, List.length_range]; rfl⟩
/-- Writing the reset value removes a cell. -/
theorem test_memory_canonical : Memory.write [(3, 1), (7, 2)] 3 0 = [(7, 2)] ∧ Memory.write [(3, 1), (7, 2)] 5 9
    = [(3, 1), (5, 9), (7, 2)] := by decide

/-! ## The assembler -/

/-- S1 of Part 3. -/
theorem test_assemble_s1 : (Asm.assemble "MOV 5, r0\nADD r0, 3, r0\nWRT r0, 1\nHCF").map (·.bytes)
    = .ok [0x70, 5, 0, 0, 0x22, 0, 3, 0, 0x34, 0, 1, 0, 0x77, 0, 0, 0] := by decide
/-- P2 of Part 3: a forward reference, patched. -/
theorem test_assemble_p2 : (Asm.assemble
      "MOV 0x41, r1\nCALL $inc ; forward\n\nWRT r1, 0\nHCF\nLABEL $inc\nADD r1, 1, r1\nPOP PC").map (·.bytes)
    = .ok [0x70, 0x41, 0, 1, 0x75, 4, 0, 0, 0x34, 1, 0, 0, 0x77, 0, 0, 0, 0x22, 1, 1, 1, 0x73, 0, 0, 7] := by decide
/-- E5: no bytes, and the error names the label. -/
theorem test_assemble_undefined_label : Asm.assemble "JMP $nowhere"
    = .error ⟨1, "JMP $nowhere".toList, .undefinedLabel "$nowhere".toList 0⟩ := by decide
/-- A quoted separator as a constant's body (rules R74 and R77: the codes of a space and a comma). -/
theorem test_assemble_quoted_separators :
    (Asm.assemble "define SP ' '\ndefine C ','\nMOV SP, r0\nMOV C, r1").map (·.bytes)
      = .ok [0x70, 32, 0, 0, 0x70, 44, 0, 1] := by decide
/-- A supplied `0` is a literal whatever the constants are (rule R78). -/
theorem test_assemble_supplied_zero : (Asm.assemble "define 0 r3\nHCF").map (·.bytes) = .ok [0x77, 0, 0, 0] := by decide
theorem test_assemble_constant : (Asm.assemble "define X 'A'\nx: mov X, r1\nMOV 300, R0").map (·.bytes)
    = .error ⟨3, "MOV 300, R0".toList, .uppercaseRegister⟩ := by decide

/-! ## Witnesses: concrete values that meet the hypotheses of the statements -/

theorem witness_DecodeFollowsOpcodeMap :
    (Operand.reg 0 = if (0x25 : Byte).toNat / 64 % 2 = 1 then .imm 0 else .reg 0)
      ∧ (Operand.imm 3 = if (0x25 : Byte).toNat / 32 % 2 = 1 then .imm 3 else .reg 3)
      ∧ [rowOf ⟨0x60, 0, 0, 0⟩, rowOf ⟨0x77, 0, 0, 0⟩, rowOf ⟨0x18, 0, 0, 0⟩, rowOf ⟨0x7f, 0, 0, 0⟩] = [0, 23, 24, 31] := by
  decide

/-- A MOV pair that differs in bit 7, in operand2 and in a high index bit, a SWAP pair, and a class 3 pair. -/
theorem witness_UnusedFieldsDoNotMatter : AgreeOnUsedFields ⟨0x70, 5, 0, 0⟩ ⟨0xd0, 5, 0xff, 8⟩
    ∧ AgreeOnUsedFields ⟨0x11, 1, 2, 0⟩ ⟨0x71, 9, 10, 7⟩ ∧ AgreeOnUsedFields ⟨0x18, 1, 2, 3⟩ ⟨0xff, 0, 0, 0⟩ := by
  refine ⟨.inr ⟨rfl, ?_, ?_, ?_, ?_, ?_⟩, .inr ⟨rfl, ?_, ?_, ?_, ?_, ?_⟩, .inl (by decide)⟩ <;> intro h
  · exact ⟨rfl, rfl⟩
  all_goals first
    | rfl
    | exact ⟨rfl, rfl⟩
    | exact absurd h (by decide)

/-- A state with a held byte, output and a stored cell, before the WRT that completes the character. -/
def heldByte : State :=
  { State.load [0x74, 0xa9, 0, 0] with
    mem := [(7, 1)]
    acc := [0xc3]
    out := [0x41]
    trace := [.clear, .emit [0x41]] }

/-- It meets the invariant, and steps. -/
theorem witness_InvariantKeptByEveryStep : Inv heldByte ∧ ∃ t, step heldByte = .next t := by
  refine ⟨⟨by decide, by decide, by decide, ?_, by decide, ?_⟩, _, rfl⟩
  · intro p q h
    rcases p with _ | ⟨x, _ | ⟨y, r⟩⟩
    · rfl
    · cases h; decide
    · cases h
  · intro e h
    rcases List.mem_cons.mp h with rfl | h
    · trivial
    · cases List.mem_singleton.mp h
      exact ⟨0x41, rfl, .inl (by decide)⟩

theorem witness_StepRunsTheDecodedInstruction : (State.load [0x70, 5, 0, 0, 9]).halted = false
    ∧ decode ((State.load [0x70, 5, 0, 0, 9]).program.drop (4 * (State.load [0x70, 5, 0, 0, 9]).regs.r7.toNat))
      = .ok (.mov (.imm 5) 0, [9]) := ⟨rfl, rfl⟩

/-- Both clauses at their boundary: three bytes and four at word 0, 1023 and 1024 at word 255. -/
theorem witness_FetchReadsFourBytesOrHalts : State.reset.halted = false
    ∧ ([0, 0, 0] : List Byte).length < 4 * (0 : Byte).toNat + 4 ∧ 4 * (0 : Byte).toNat + 4 ≤ ([0, 0, 0, 0] : List Byte).length
    ∧ (List.replicate 1023 (0 : Byte)).length < 4 * (255 : Byte).toNat + 4
    ∧ 4 * (255 : Byte).toNat + 4 ≤ (List.replicate 1024 (0 : Byte)).length := by
  rw [List.length_replicate, List.length_replicate]
  decide

/-- A halted step, a failed fetch, an HCF, and a step that goes on running. -/
theorem witness_HaltedIsSetInExactlyTwoWays :
    (∃ t, step { State.reset with halted := true } = .next t ∧ t.halted = true)
      ∧ (∃ t, step State.reset = .next t ∧ t.halted = true ∧ fetchWord State.reset.program State.reset.regs.r7 = none)
      ∧ (∃ t, step (State.load [0x77, 0, 0, 0]) = .next t ∧ t.halted = true
          ∧ fetchWord [0x77, 0, 0, 0] 0 = some ⟨0x77, 0, 0, 0⟩)
      ∧ ∃ t, step (State.load [0x6c, 0, 0, 0]) = .next t ∧ t.halted = false :=
  ⟨⟨_, rfl, rfl⟩, ⟨_, rfl, rfl, rfl⟩, ⟨_, rfl, rfl, rfl⟩, ⟨_, rfl, rfl⟩⟩

theorem witness_ProgramStoreNeverChanges :
    ∃ t, stepN 1 { State.load [0x70, 0x63, 0, 5] with regs := ⟨0, 0, 0, 0, 2, 0, 0, 0⟩ } = .next t ∧ t.mem = [(2, 0x63)] :=
  ⟨_, rfl, rfl⟩

theorem witness_RunIsRepeatedStep : ∃ t, runCapped 1 (State.load [0x77, 0, 0, 0]) = .next t ∧ t.halted = true :=
  ⟨_, rfl, rfl⟩

theorem witness_CoreIgnoresTheOutputUnit :
    SameButOutput (State.load [0x74, 0xa9, 0, 0]) { State.load [0x74, 0xa9, 0, 0] with acc := [0xc3] }
      ∧ ∃ t, stepN 1 (State.load [0x74, 0xa9, 0, 0]) = .next t := ⟨⟨rfl, rfl, rfl, rfl, rfl⟩, _, rfl⟩

/-- A step with no event, one with an Emit and one with a Clear. -/
theorem witness_AtMostOneEventPerStep : (∃ t, step (State.load [0x6c, 0, 0, 0]) = .next t ∧ t.trace = [])
    ∧ (∃ t, step (State.load [0x74, 0x41, 0, 0]) = .next t ∧ t.trace = [.emit [0x41]])
    ∧ ∃ t, step (State.load [0x74, 0, 0, 0]) = .next t ∧ t.trace = [.clear] := ⟨⟨_, rfl, rfl⟩, ⟨_, rfl, rfl⟩, ⟨_, rfl, rfl⟩⟩

/-- Both ends of the range: JMP and JGT. -/
theorem witness_SubtypeBit2NegatesTheTest : (8 ≤ rowOf ⟨0x68, 0, 0, 5⟩ ∧ rowOf ⟨0x68, 0, 0, 5⟩ < 12)
    ∧ 8 ≤ rowOf ⟨0x6b, 7, 3, 9⟩ ∧ rowOf ⟨0x6b, 7, 3, 9⟩ < 12 := by decide

theorem witness_PopTakesTheTopOrNothing : State.reset.stack = []
    ∧ (stateOf ⟨0, 0, 0, 0, 0, 0, 0, 0⟩ [] [7, 8]).stack = 7 :: [8] := ⟨rfl, rfl⟩

theorem witness_PopR7ReturnsAfterTheCall : ∃ t, exec (.call (.imm 4)) State.reset = .next t
    ∧ (stateOf ⟨1, 2, 3, 0, 0, 0, 0, 9⟩ [] [0]).stack = t.stack ∧ (7 : Byte).toNat % 8 = 7 ∧ (15 : Byte).toNat % 8 = 7 :=
  ⟨_, rfl, rfl, rfl, rfl⟩

/-- The three cases of a format-0 byte. -/
theorem witness_WrtStreamsUtf8 : (State.reset.fetch (.imm 0)).toNat % 4 = 0 ∧ (State.reset.fetch (.imm 0xfc)).toNat % 4 = 0
    ∧ State.reset.fetch (.imm 0) = 0 ∧ utf8Decode (State.reset.acc ++ [State.reset.fetch (.imm 0x41)]) = some [0x41]
    ∧ utf8Decode (State.reset.acc ++ [State.reset.fetch (.imm 0xe2)]) = none := by decide

/-- Formats 1, 2 and 3, each with a value at the last character it prints and one past it. -/
theorem witness_WrtPrintsOneCharacter :
    [(State.reset.fetch (.imm 1)).toNat % 4, (State.reset.fetch (.imm 2)).toNat % 4, (State.reset.fetch (.imm 3)).toNat % 4]
      = [1, 2, 3]
    ∧ (∃ t, exec (.wrt (.imm 9) (.imm 1)) State.reset = .next t ∧ t.out = [0x39])
    ∧ (∃ t, exec (.wrt (.imm 26) (.imm 2)) State.reset = .next t ∧ t.out = [0x3f])
    ∧ (∃ t, exec (.wrt (.imm 10) (.imm 3)) State.reset = .next t ∧ t.out = [0x41])
    ∧ ∃ t, exec (.wrt (.imm 16) (.imm 3)) State.reset = .next t ∧ t.out = [0x3f] :=
  ⟨rfl, ⟨_, rfl, rfl⟩, ⟨_, rfl, rfl⟩, ⟨_, rfl, rfl⟩, ⟨_, rfl, rfl⟩⟩

theorem witness_Utf8DecodeIsTheTable : utf8Decode [0xe2, 0x82, 0xac] = some [0x20ac] ∧ utf8Decode [] = none
    ∧ Utf8Text [0x41] [0x41] := ⟨by decide, rfl, .cons (.one 0x41 (by decide)) .nil⟩

/-- The ranges of the clauses on second, third and fourth bytes at their ends, with the breaks of the never rows of 2.5. -/
theorem witness_BrokenSequenceSilencesTheStream :
    ((0x80 : Byte).toNat ≤ 0xC1 ∧ (0xC1 : Byte).toNat ≤ 0xC1 ∧ 0xF5 ≤ (0xF5 : Byte).toNat)
    ∧ (0xC2 ≤ (0xC2 : Byte).toNat ∧ (0x7F : Byte).toNat < 0x80 ∧ 0xBF < (0xC0 : Byte).toNat)
    ∧ (¬ SecondByteFits 0xC2 0x7F ∧ ¬ SecondByteFits 0xE0 0x9F ∧ ¬ SecondByteFits 0xED 0xA0 ∧ ¬ SecondByteFits 0xF0 0x8F
        ∧ ¬ SecondByteFits 0xF4 0x90)
    ∧ (0xE0 ≤ (0xE2 : Byte).toNat ∧ ¬ IsContinuation 0x41 ∧ ¬ IsContinuation 0xF5)
    ∧ 0xF0 ≤ (0xF0 : Byte).toNat ∧ ¬ IsContinuation 0x7F ∧ ¬ IsContinuation 0xC0 := by
  simp [SecondByteFits, IsContinuation]

/-- A byte with which nothing well-formed begins. -/
theorem witness_BrokenSequenceSilencesTheStream_beginning : ¬ Utf8Beginning [0x80] := by
  rintro ⟨ext, text, h⟩
  generalize e : ([0x80] ++ ext : List Byte) = bytes at h
  cases h with
  | nil => cases e
  | cons row _ =>
    cases row <;> (injection e with e _; subst e; simp at *)

/-- A value that breaks the sequence `acc` holds at its third byte: e2 82 41. -/
theorem witness_BrokenSequenceSilencesTheStream_wrt :
    (State.reset.fetch (.imm 0)).toNat % 4 = 0 ∧ State.reset.fetch (.imm 0x41) ≠ 0
    ∧ ∀ ext : List Byte,
        utf8Decode (({ State.reset with acc := [0xe2, 0x82] } : State).acc ++ State.reset.fetch (.imm 0x41) :: ext) = none := by
  refine ⟨by decide, by decide, fun ext => ?_⟩
  rcases ext with _ | ⟨x, r⟩ <;> exact (scalarsOf_cons _ _).trans rfl

theorem witness_AsciiIsEmittedAtOnce : State.reset.acc = [] ∧ (State.reset.fetch (.imm 0)).toNat % 4 = 0
    ∧ 1 ≤ (State.reset.fetch (.imm 1)).toNat ∧ (State.reset.fetch (.imm 0x7f)).toNat ≤ 0x7F := by decide

theorem witness_MemoryChangesOnlyThroughR5 :
    ∃ t, exec (.mov (.imm 5) 13) (stateOf ⟨0, 0, 0, 0, 0x20, 0, 0, 0⟩) = .next t
      ∧ t.memRead 0x20 ≠ (stateOf ⟨0, 0, 0, 0, 0x20, 0, 0, 0⟩).memRead 0x20 := ⟨_, rfl, by decide⟩

theorem witness_StackChangesOnlyByPushPopCall : ∃ t, exec (.pop 0) (stateOf ⟨0, 0, 0, 0, 0, 0, 0, 0⟩ [] [7, 8]) = .next t
    ∧ t.stack = [8] := ⟨_, rfl, rfl⟩

/-- Both ways: a read-back and a SWAP. -/
theorem witness_ShadowChangesInExactlyTwoWays :
    (∃ t, exec (.mov (.imm 5) 4) (stateOf ⟨0, 0, 0, 0, 0, 0, 0, 0⟩ [(5, 0x77)]) = .next t ∧ t.regs.r5 ≠ 0)
    ∧ ∃ t, exec (.swap 5 1) (stateOf ⟨0, 0x7e, 0, 0, 0, 0, 0, 0⟩) = .next t ∧ t.regs.r5 ≠ 0 :=
  ⟨⟨_, rfl, by decide⟩, ⟨_, rfl, by decide⟩⟩

theorem witness_SlotsChangeOnlyWhereNamed : ∃ t, exec (.swap 0 4) (stateOf ⟨1, 0, 0, 0, 2, 0, 0, 0⟩) = .next t
    ∧ t.observe.regs.getD 0 0 ≠ (stateOf ⟨1, 0, 0, 0, 2, 0, 0, 0⟩).observe.regs.getD 0 0
    ∧ t.observe.regs.getD 4 0 ≠ (stateOf ⟨1, 0, 0, 0, 2, 0, 0, 0⟩).observe.regs.getD 4 0 := ⟨_, rfl, by decide, by decide⟩

theorem witness_OutputChangesOnlyByWrt : (∃ t, exec .nop State.reset = .next t ∧ ∀ a f, Instr.nop ≠ .wrt a f)
    ∧ ∃ t, exec (.wrt (.imm 9) (.imm 1)) State.reset = .next t ∧ (State.reset.fetch (.imm 1)).toNat % 4 ≠ 0 :=
  ⟨⟨_, rfl, fun _ _ h => by cases h⟩, ⟨_, rfl, by decide⟩⟩

/-- A JMP to itself at word 0, and a JRE with offset 0. -/
theorem witness_JumpToItselfNeverHalts : State.reset.halted = false
    ∧ (fetchWord [0x68, 0, 0, 0] 0 = some ⟨0x68, 0, 0, 0⟩ ∧ decodeWord ⟨0x68, 0, 0, 0⟩ = .jmp State.reset.regs.r7)
    ∧ fetchWord [0x76, 0, 0, 0] 0 = some ⟨0x76, 0, 0, 0⟩ ∧ decodeWord ⟨0x76, 0, 0, 0⟩ = .jre ∧ State.reset.regs.r0 = 0 := by
  decide

theorem witness_LongProgramNeverRunsOff : 1024 ≤ ([0x77, 0, 0, 0] ++ List.replicate 1020 (0 : Byte)).length
    ∧ ∃ t, step (State.load ([0x77, 0, 0, 0] ++ List.replicate 1020 0)) = .next t ∧ t.halted = true :=
  ⟨by rw [List.length_append, List.length_replicate]; decide, _, rfl, rfl⟩

/-- A kept byte before the placed word and one after it. -/
theorem witness_PlacedWordIsTheWordRun :
    (3 < (List.replicate 12 (0 : Byte)).length ∧ 3 < 4 * (1 : Byte).toNat)
      ∧ 8 < (List.replicate 12 (0 : Byte)).length ∧ 4 * (1 : Byte).toNat + 4 ≤ 8 := by decide

/-- A decoder other than the default, under which a lone continuation byte is a character. -/
def rawByte (bytes : List Byte) : Option Text := some (bytes.map BitVec.toNat)

theorem witness_WrtStreamsWithAnyDecoder : (State.reset.fetch (.imm 4)).toNat % 4 = 0
    ∧ (∃ t, execWith rawByte (.wrt (.imm 0x80) (.imm 0)) State.reset = .next t ∧ t.out = [0x80])
    ∧ ∃ t, execWith utf8Decode (.wrt (.imm 0x80) (.imm 0)) State.reset = .next t ∧ t.acc = [0x80] :=
  ⟨rfl, ⟨_, rfl, rfl⟩, ⟨_, rfl, rfl⟩⟩

theorem witness_DecoderReachesOnlyTheOutputUnit :
    SameButOutput (State.load [0x74, 0x80, 0, 0]) { State.load [0x74, 0x80, 0, 0] with acc := [0xc3] }
      ∧ ∃ t, stepNWith rawByte 1 (State.load [0x74, 0x80, 0, 0]) = .next t := ⟨⟨rfl, rfl, rfl, rfl, rfl⟩, _, rfl⟩

/-- A decoder with the property of U8, and the two ends of its range. -/
theorem witness_AsciiUnderAnyAgreeingDecoder :
    (∀ v : Byte, 1 ≤ v.toNat → v.toNat ≤ 0x7F → rawByte [v] = some [v.toNat])
      ∧ State.reset.acc = [] ∧ (State.reset.fetch (.imm 0)).toNat % 4 = 0
      ∧ 1 ≤ (State.reset.fetch (.imm 1)).toNat ∧ (State.reset.fetch (.imm 0x7f)).toNat ≤ 0x7F :=
  ⟨fun _ _ _ => rfl, rfl, rfl, by decide, by decide⟩

/-- A store, and a memory that agrees with the state's at `regs[4]` and nowhere else need agree. -/
theorem witness_MemoryIsReadAndWrittenAtR4Only :
    (∃ t, exec (.mov (.imm 5) 5) (stateOf ⟨0, 0, 0, 0, 0x20, 0, 0, 0⟩) = .next t ∧ t.mem = [(0x20, 5)] ∧ t.regs.r4 = 0x20)
      ∧ Memory.read [(0x21, 9)] 0x20 = (stateOf ⟨0, 0, 0, 0, 0x20, 0, 0, 0⟩).memRead 0x20 := ⟨⟨_, rfl, rfl, rfl⟩, rfl⟩

theorem witness_AssembledProgramsAreWholeWords : (Asm.assemble "HCF").map (·.bytes) = .ok [0x77, 0, 0, 0] := by decide

theorem witness_AssembledLineReadsBack : ("ADD".toList, (0 : BitVec 2), (2 : BitVec 3)) ∈ Asm.mnemonics
    ∧ ("HCF".toList, (2 : BitVec 2), (7 : BitVec 3)) ∈ Asm.mnemonics := by decide

/-- Each kind of short form, under a constant named `0`. -/
theorem witness_ShorthandZerosAreLiterals : Asm.mnemonics.lookup "HCF".toList = some (2, 7)
    ∧ Asm.mnemonics.lookup "CALL".toList = some (2, 5) ∧ Asm.mnemonics.lookup "POP".toList = some (2, 3)
    ∧ Asm.mnemonics.lookup "MOV".toList = some (2, 0) ∧ Asm.mnemonics.lookup "WRT".toList = some (2, 4)
    ∧ Asm.resolve [("0".toList, .register 3)] ⟨[], [], [], []⟩ "255".toList = .ok (.literal 255, none)
    ∧ Asm.resolve [("0".toList, .register 3)] ⟨[], [], [], []⟩ "$L".toList = .ok (.literal 0, some "$L".toList) := by decide

end Sys2Proof.Tests
end

section
/-! SUPPORT. The output unit (rules R24, R25 and R156) as a part of the state that can be exchanged: what the machine does to
the rest of the state is the same whatever the unit holds and whatever decoder it has. -/

namespace Sys2Proof.Machine

/-- The state with the accumulator, buffer and trace of another. -/
def State.withUnit (s u : State) : State := { s with acc := u.acc, out := u.out, trace := u.trace }

/-- Two states differ at most in the output unit exactly when exchanging it takes the one to the other. -/
theorem sameButOutput_iff_withUnit (s t : State) : SameButOutput s t ↔ t = s.withUnit t := by
  constructor
  · rintro ⟨hregs, hmem, hstack, hhalted, hprogram⟩
    simp only [State.withUnit, hregs, hmem, hstack, hhalted, hprogram]
  · intro h
    rw [h]
    exact ⟨rfl, rfl, rfl, rfl, rfl⟩

@[simp] theorem State.withUnit_self (s : State) : s.withUnit s = s := rfl

/-- States that took their units from anywhere else still agree on the rest. -/
theorem State.withUnit_sameButOutput (s u u' : State) : SameButOutput (s.withUnit u) (s.withUnit u') :=
  ⟨rfl, rfl, rfl, rfl, rfl⟩

/-! ## The shared operations neither read nor write the unit -/

@[simp] theorem State.withUnit_fetch (s u : State) (a : Operand) : (s.withUnit u).fetch a = s.fetch a := by
  cases a with
  | imm v => rfl
  | reg b => simp only [State.fetch, State.regRead_eq]; rfl

@[simp] theorem State.withUnit_advancePC (s u : State) : (s.withUnit u).advancePC = s.advancePC.withUnit u := rfl

@[simp] theorem State.withUnit_regWrite (s u : State) (r : Reg) (v : Byte) :
    (s.withUnit u).regWrite r v = (s.regWrite r v).withUnit u := by
  cases r <;> rfl

@[simp] theorem State.withUnit_writeDest (s u : State) (d v : Byte) :
    (s.withUnit u).writeDest d v = (s.writeDest d v).withUnit u := by
  simp only [State.writeDest, State.withUnit_regWrite, State.withUnit_advancePC]

@[simp] theorem State.withUnit_branch (s u : State) (taken : Bool) (t : Byte) :
    (s.withUnit u).branch taken t = (s.branch taken t).withUnit u := by
  cases taken <;> rfl

@[simp] theorem State.withUnit_swapSlots (s u : State) (i j : Reg) :
    (s.withUnit u).swapSlots i j = (s.swapSlots i j).withUnit u := by
  by_cases h : i = .r6 ∨ j = .r6
  · simp only [State.swapSlots, if_pos h]
  · simp only [State.swapSlots, if_neg h]; rfl

/-! ## The instructions other than WRT -/

/-- A meaning that goes on from every state and carries the output unit through unread and unchanged. -/
def BlindToUnit (execute : State → Host.Outcome State Fault Refusal) : Prop :=
  ∀ s, ∃ t, execute s = .next t ∧ ∀ u, execute (s.withUnit u) = .next (t.withUnit u)

/-- A meaning that always goes on is blind to the unit when its update commutes with exchanging the unit. -/
theorem blindToUnit_next {update : State → State}
    (h : ∀ s u, update (s.withUnit u) = (update s).withUnit u) : BlindToUnit fun s => .next (update s) :=
  fun s => ⟨update s, rfl, fun u => congrArg _ (h s u)⟩

/-- What a blind meaning leaves has the unit it found. -/
theorem BlindToUnit.keeps_unit {execute : State → Host.Outcome State Fault Refusal} (h : BlindToUnit execute)
    {s t : State} (ht : execute s = .next t) : t.withUnit s = t := by
  obtain ⟨t', ht', hu⟩ := h s
  obtain rfl : t = t' := Host.Outcome.next.inj (ht.symm.trans ht')
  have hs := hu s
  rw [State.withUnit_self, ht] at hs
  exact (Host.Outcome.next.inj hs).symm

theorem execAlu_blindToUnit (op : Byte → Byte → Byte) (a b : Operand) (d : Byte) : BlindToUnit (execAlu op a b d) :=
  blindToUnit_next fun s u => by simp only [State.withUnit_fetch, State.withUnit_writeDest]

/-- The COND class (rule R110), for any test of the two operands. -/
theorem branch_blindToUnit (test : Byte → Byte → Bool) (a b : Operand) (t : Byte) :
    BlindToUnit fun s => .next (s.branch (test (s.fetch a) (s.fetch b)) t) :=
  blindToUnit_next fun s u => by simp only [State.withUnit_fetch, State.withUnit_branch]

/-- NOT and MOV (rules R98 and R131): a function of one operand into `dest`. -/
theorem writeDest_blindToUnit (op : Byte → Byte) (a : Operand) (d : Byte) :
    BlindToUnit fun s => .next (s.writeDest d (op (s.fetch a))) :=
  blindToUnit_next fun s u => by simp only [State.withUnit_fetch, State.withUnit_writeDest]

theorem execSwap_blindToUnit (i j : Byte) : BlindToUnit (execSwap i j) :=
  blindToUnit_next fun s u => by simp only [State.withUnit_swapSlots, State.withUnit_advancePC]

theorem execPush_blindToUnit (a : Operand) : BlindToUnit (execPush a) :=
  blindToUnit_next fun s u => by rw [State.withUnit_fetch]; rfl

/-- POP on an empty stack (rule R134). -/
theorem execPop_of_nil (d : Byte) {s : State} (h : s.stack = []) : execPop d s = .next s.advancePC := by
  unfold execPop State.pop?
  rw [h]

/-- POP on a stack with a top (rule R134). -/
theorem execPop_of_cons (d : Byte) {s : State} {v : Byte} {rest : List Byte} (h : s.stack = v :: rest) :
    execPop d s = .next (State.writeDest { s with stack := rest } d v) := by
  unfold execPop State.pop?
  rw [h]

theorem execPop_blindToUnit (d : Byte) : BlindToUnit (execPop d) := by
  intro s
  cases hs : s.stack with
  | nil => exact ⟨s.advancePC, execPop_of_nil d hs, fun u => execPop_of_nil d (s := s.withUnit u) hs⟩
  | cons v rest =>
    refine ⟨_, execPop_of_cons d hs, fun u => ?_⟩
    rw [← State.withUnit_writeDest]
    exact execPop_of_cons d (s := s.withUnit u) hs

theorem execCall_blindToUnit (a : Operand) : BlindToUnit (execCall a) :=
  blindToUnit_next fun s u => by rw [State.withUnit_fetch]; rfl

/-- No instruction but WRT has to do with the output unit (rule R150), and each of them goes on. -/
theorem exec_blindToUnit (i : Instr) (h : ∀ a f, i ≠ .wrt a f) : BlindToUnit (exec i) := by
  cases i with
  | and a b d => exact execAlu_blindToUnit _ a b d
  | ror a b d => exact execAlu_blindToUnit _ a b d
  | add a b d => exact execAlu_blindToUnit _ a b d
  | xor a b d => exact execAlu_blindToUnit _ a b d
  | or a b d => exact execAlu_blindToUnit _ a b d
  | rol a b d => exact execAlu_blindToUnit _ a b d
  | sub a b d => exact execAlu_blindToUnit _ a b d
  | not a d => exact writeDest_blindToUnit (fun x => ~~~x) a d
  | jmp t => exact blindToUnit_next fun s u => s.withUnit_branch u testJmp t
  | jne a b t => exact branch_blindToUnit testJne a b t
  | jge a b t => exact branch_blindToUnit testJge a b t
  | jgt a b t => exact branch_blindToUnit testJgt a b t
  | nop => exact blindToUnit_next fun s u => s.withUnit_branch u testNop 0
  | jeq a b t => exact branch_blindToUnit testJeq a b t
  | jlt a b t => exact branch_blindToUnit testJlt a b t
  | jle a b t => exact branch_blindToUnit testJle a b t
  | mov a d => exact writeDest_blindToUnit id a d
  | swap x y => exact execSwap_blindToUnit x y
  | push a => exact execPush_blindToUnit a
  | pop d => exact execPop_blindToUnit d
  | wrt a f => exact absurd rfl (h a f)
  | call a => exact execCall_blindToUnit a
  | jre => exact blindToUnit_next fun _ _ => rfl
  | hcf => exact blindToUnit_next fun _ _ => rfl
  | class3 => exact blindToUnit_next fun _ _ => rfl

/-! ## WRT -/

/-- WRT advances `pc` and changes the output unit, nothing else (rule R150), for any decoder. -/
theorem execWrtWith_eq_withUnit (decoder : List Byte → Option Text) (a f : Operand) (s : State) :
    execWrtWith decoder a f s = .next (s.advancePC.withUnit (s.writeWith decoder (s.fetch a) (s.fetch f))) := by
  rw [execWrtWith, State.writeWith_frame]
  rfl

/-- WRT in format 0 (rules R150 and R151), for any decoder: the streaming unit takes the value, and `pc` advances. -/
theorem execWith_wrt_format0 (decoder : List Byte → Option Text) (a f : Operand) (s : State)
    (hf : (s.fetch f).toNat % 4 = 0) :
    execWith decoder (.wrt a f) s = .next ((writeUtf8With decoder (s.fetch a) s).withPc (s.regs.r7 + 1)) := by
  have hw : s.writeWith decoder (s.fetch a) (s.fetch f) = writeUtf8With decoder (s.fetch a) s := by
    rw [State.writeWith_eq, if_pos hf]
  have hr : (writeUtf8With decoder (s.fetch a) s).regs = s.regs := by rw [← hw, State.writeWith_frame]
  rw [← hr, ← hw]
  rfl

/-! ## Steps and runs, for any decoder -/

/-- A step of a halted core (rule R69), whatever executes the instructions. -/
theorem stepBy_of_halted (execute : Instr → State → Host.Outcome State Fault Refusal) {s : State}
    (hh : s.halted = true) : stepBy execute s = .next s := by
  unfold stepBy
  rw [hh]

/-- A step whose fetch fails (rules R68 and R69). -/
theorem stepBy_of_fetch_none (execute : Instr → State → Host.Outcome State Fault Refusal) {s : State}
    (hh : s.halted = false) (hf : fetchWord s.program s.pc = none) : stepBy execute s = .next s.halt := by
  unfold stepBy
  rw [hh, hf]

/-- A step that fetches a word (rule R69). -/
theorem stepBy_of_fetch_some (execute : Instr → State → Host.Outcome State Fault Refusal) {s : State} {w : InstrWord}
    (hh : s.halted = false) (hf : fetchWord s.program s.pc = some w) :
    stepBy execute s = execute (decodeWord w) s := by
  unfold stepBy
  rw [hh, hf]

/-- The rest of the state after an instruction is the same under every decoder and for every content of the unit. -/
theorem execWith_withUnit (i : Instr) (s : State) :
    ∃ t : State, ∀ decoder u, ∃ u', execWith decoder i (s.withUnit u) = .next (t.withUnit u') := by
  by_cases hi : ∃ a f, i = .wrt a f
  · obtain ⟨a, f, rfl⟩ := hi
    exact ⟨s.advancePC, fun decoder u => ⟨_, execWrtWith_eq_withUnit decoder a f (s.withUnit u)⟩⟩
  · have hne : ∀ a f, i ≠ .wrt a f := fun a f h => hi ⟨a, f, h⟩
    obtain ⟨t, -, ht⟩ := exec_blindToUnit i hne s
    refine ⟨t, fun decoder u => ⟨u, ?_⟩⟩
    rcases execWith_cases decoder i (s.withUnit u) with ⟨a, f, h, -⟩ | ⟨-, h⟩
    · exact absurd h (hne a f)
    · exact h.trans (ht u)

/-- The same of a step. -/
theorem stepWith_withUnit (s : State) :
    ∃ t : State, ∀ decoder u, ∃ u', stepWith decoder (s.withUnit u) = .next (t.withUnit u') := by
  cases hh : s.halted with
  | true => exact ⟨s, fun decoder u => ⟨u, stepBy_of_halted _ (s := s.withUnit u) hh⟩⟩
  | false =>
    cases hf : fetchWord s.program s.pc with
    | none => exact ⟨s.halt, fun decoder u => ⟨u, stepBy_of_fetch_none _ (s := s.withUnit u) hh hf⟩⟩
    | some w =>
      obtain ⟨t, ht⟩ := execWith_withUnit (decodeWord w) s
      refine ⟨t, fun decoder u => ?_⟩
      obtain ⟨u', hu'⟩ := ht decoder u
      exact ⟨u', (stepBy_of_fetch_some _ (s := s.withUnit u) hh hf).trans hu'⟩

/-- The same of a run of any length. -/
theorem stepNWith_withUnit (k : Nat) :
    ∀ s : State, ∃ t : State, ∀ decoder u, ∃ u', stepNWith decoder k (s.withUnit u) = .next (t.withUnit u') := by
  induction k with
  | zero => exact fun s => ⟨s, fun _ u => ⟨u, rfl⟩⟩
  | succ k ih =>
    intro s
    obtain ⟨m, hm⟩ := stepWith_withUnit s
    obtain ⟨t, ht⟩ := ih m
    refine ⟨t, fun decoder u => ?_⟩
    obtain ⟨um, hum⟩ := hm decoder u
    obtain ⟨ut, hut⟩ := ht decoder um
    refine ⟨ut, ?_⟩
    rw [stepNWith, stepNBy_succ, hum]
    exact hut

/-! ## The default decoder -/

theorem execWith_utf8Decode : execWith utf8Decode = exec := by
  funext i s
  rcases execWith_cases utf8Decode i s with ⟨a, f, rfl, -⟩ | ⟨-, h⟩
  · rfl
  · exact h

theorem stepWith_utf8Decode : stepWith utf8Decode = step := by
  funext s
  rw [stepWith, execWith_utf8Decode, step]

/-! ## Events -/

/-- From one state to the next at most one event was delivered, and the buffer followed it (rule R156). -/
def OneEventAtMost (s t : State) : Prop :=
  (t.trace = s.trace ∧ t.out = s.out) ∨ ∃ e : OutEvent, t.trace = s.trace ++ [e] ∧ t.out = e.apply s.out

theorem emit_oneEventAtMost (s : State) (text : Text) : OneEventAtMost s (s.emit text) :=
  .inr ⟨.emit text, rfl, rfl⟩

theorem writeUtf8With_oneEventAtMost (decoder : List Byte → Option Text) (v : Byte) (s : State) :
    OneEventAtMost s (writeUtf8With decoder v s) := by
  rcases writeUtf8With_cases decoder v s with ⟨-, h⟩ | ⟨text, -, -, h⟩ | ⟨-, -, h⟩ <;> rw [h]
  · exact .inr ⟨.clear, rfl, rfl⟩
  · exact .inr ⟨.emit text, rfl, rfl⟩
  · exact .inl ⟨rfl, rfl⟩

theorem writeWith_oneEventAtMost (decoder : List Byte → Option Text) (s : State) (v f : Byte) :
    OneEventAtMost s (s.writeWith decoder v f) := by
  rcases s.writeWith_cases decoder v f with h | h | h | h <;> rw [h]
  · exact writeUtf8With_oneEventAtMost decoder v s
  all_goals exact emit_oneEventAtMost s _

theorem execWith_oneEventAtMost (decoder : List Byte → Option Text) (i : Instr) {s t : State}
    (h : execWith decoder i s = .next t) : OneEventAtMost s t := by
  rcases execWith_cases decoder i s with ⟨a, f, rfl, hw⟩ | ⟨hne, he⟩
  · cases h.symm.trans (hw.trans (execWrtWith_eq_withUnit decoder a f s))
    exact writeWith_oneEventAtMost decoder s (s.fetch a) (s.fetch f)
  · have hk : t.withUnit s = t := (exec_blindToUnit i hne).keeps_unit (he.symm.trans h)
    rw [← hk]
    exact .inl ⟨rfl, rfl⟩

theorem stepWith_oneEventAtMost (decoder : List Byte → Option Text) {s t : State}
    (h : stepWith decoder s = .next t) : OneEventAtMost s t := by
  rcases stepBy_cases (execWith decoder) s with ⟨-, hs⟩ | ⟨-, -, hs⟩ | ⟨w, -, -, hs⟩
  · cases h.symm.trans hs
    exact .inl ⟨rfl, rfl⟩
  · cases h.symm.trans hs
    exact .inl ⟨rfl, rfl⟩
  · exact execWith_oneEventAtMost decoder (decodeWord w) (hs.symm.trans h)

end Sys2Proof.Machine
end

section
/-! The statements of 00_scope.md, settled. -/

namespace Sys2Proof.Proofs

open Sys2Proof.Machine

/-- Settles O51: the run with any unit and decoder ends in one state, its unit apart. -/
theorem decoderReachesOnlyTheOutputUnit : Obligations.DecoderReachesOnlyTheOutputUnit := by
  intro decoder decoder' k s s' t hss' ht
  have hs' : s' = s.withUnit s' := (sameButOutput_iff_withUnit s s').mp hss'
  obtain ⟨e, he⟩ := stepNWith_withUnit k s
  obtain ⟨u, hu⟩ := he decoder s
  rw [State.withUnit_self] at hu
  obtain ⟨u', hu'⟩ := he decoder' s'
  have hte : t = e.withUnit u := Host.Outcome.next.inj (ht.symm.trans hu)
  refine ⟨e.withUnit u', ?_, ?_⟩
  · rw [hs']
    exact hu'
  · rw [hte]
    exact e.withUnit_sameButOutput u u'

/-- Settles O17: only WRT has events, and each of its formats delivers at most one. -/
theorem atMostOneEventPerStep : Obligations.AtMostOneEventPerStep := by
  intro s t h
  rw [← stepWith_utf8Decode] at h
  exact stepWith_oneEventAtMost utf8Decode h

/-- Settles O49, by the three things the streaming unit can do. -/
theorem wrtStreamsWithAnyDecoder : Obligations.WrtStreamsWithAnyDecoder := by
  intro decoder a f s hf
  rw [execWith_wrt_format0 decoder a f s hf]
  rcases writeUtf8With_cases decoder (s.fetch a) s with ⟨hv, h⟩ | ⟨text, hv, hd, h⟩ | ⟨hv, hd, h⟩
  · rw [h, if_pos hv]
  · rw [h, if_neg hv, hd]
  · rw [h, if_neg hv, hd]

/-- Settles O52: the accumulator is empty, so the decoder is asked for the single byte, which it decodes. -/
theorem asciiUnderAnyAgreeingDecoder : Obligations.AsciiUnderAnyAgreeingDecoder := by
  intro decoder hdec a f s hacc hf hlo hhi
  have hne : s.fetch a ≠ 0 := fun h => by simp [h] at hlo
  have hone : decoder (s.acc ++ [s.fetch a]) = some [(s.fetch a).toNat] := by
    rw [hacc]
    exact hdec _ hlo hhi
  rw [wrtStreamsWithAnyDecoder decoder a f s hf, if_neg hne, hone]
  simp only [State.withPc, hacc]

/-- Settles O50. -/
theorem defaultDecoderGivesTheMachine : Obligations.DefaultDecoderGivesTheMachine := by
  refine ⟨fun i s => ?_, fun s => ?_, fun n s => ⟨?_, ?_⟩, ?_⟩
  · rw [execWith_utf8Decode]
  · rw [stepWith_utf8Decode]
  · rw [stepNWith, stepWith_utf8Decode, stepN]
  · rw [runCappedWith, stepWith_utf8Decode, runCapped]
  · rw [coreWith, stepWith_utf8Decode, Sys2Proof.core]

end Sys2Proof.Proofs
end

section
/-! SUPPORT. What an instruction can leave, said once for all 25 rows: the slots, cells, stack and `halted` of the state
after it, and that nothing of it rests on what `halted` held. The statements of 10_state.md follow from it. -/

namespace Sys2Proof.Machine

/-! ## Register indices as numbers -/

/-- The number of a register (rule R11). -/
def Reg.index : Reg → Nat
  | .r0 => 0
  | .r1 => 1
  | .r2 => 2
  | .r3 => 3
  | .r4 => 4
  | .r5 => 5
  | .r6 => 6
  | .r7 => 7

/-- A byte names the register whose number its low 3 bits make (rules R14 and R64). -/
theorem regOf_eq_iff (b : Byte) (r : Reg) : regOf b = r ↔ b.toNat % 8 = r.index := by
  revert b
  cases r <;> decide

/-- The host reads slot `r` at the place of its number (rule R27). -/
theorem observe_regs_getD_index (s : State) (r : Reg) : s.observe.regs.getD r.index 0 = s.regs.get r := by
  cases r <;> rfl

theorem namesDest_index_iff (i : Instr) (r : Reg) :
    NamesDest i r.index ↔ ∃ d, destByte i = some d ∧ regOf d = r := by
  simp only [NamesDest, regOf_eq_iff]

theorem namesSwap_index_iff (i : Instr) (r : Reg) :
    NamesSwap i r.index ↔ ∃ x y, i = .swap x y ∧ (regOf x = r ∨ regOf y = r) := by
  simp only [NamesSwap, regOf_eq_iff]

/-! ## The write to `dest` and the advance -/

/-- Every slot but `pc` after a write to `dest` (rules R13 and R18). -/
theorem State.writeDest_get (s : State) (d v : Byte) {j : Reg} (hj : j ≠ .r7) :
    (s.writeDest d v).regs.get j =
      if j = .r5 ∧ regOf d = .r4 then s.memRead v
      else if j = regOf d ∧ regOf d ≠ .r5 ∧ regOf d ≠ .r6 then v else s.regs.get j := by
  rw [← State.regWrite_get, State.writeDest, State.advancePC_regs, Slots.get_set, if_neg hj]

/-- Every memory cell after a write to `dest` (rule R13). -/
theorem State.writeDest_memRead (s : State) (d v a : Byte) :
    (s.writeDest d v).memRead a = if regOf d = .r5 ∧ a = s.regs.r4 then v else s.memRead a :=
  (State.memRead_congr (State.advancePC_mem _) a).trans (s.regWrite_memRead (regOf d) v a)

@[simp] theorem State.writeDest_stack (s : State) (d v : Byte) : (s.writeDest d v).stack = s.stack := by
  simp [State.writeDest]

/-- Every slot but `pc` after a SWAP (rule R132). -/
theorem State.swapSlots_advancePC_get (s : State) (i j : Reg) {k : Reg} (hk : k ≠ .r7) :
    (s.swapSlots i j).advancePC.regs.get k =
      if i = .r6 ∨ j = .r6 then s.regs.get k
      else if k = j then s.regs.get i else if k = i then s.regs.get j else s.regs.get k := by
  rw [← State.swapSlots_get, State.advancePC_regs, Slots.get_set, if_neg hk]

/-! ## `halted` as a part of the state that can be exchanged -/

/-- The state with another `halted`. -/
def State.withHalted (s : State) (b : Bool) : State := { s with halted := b }

@[simp] theorem State.withHalted_fetch (s : State) (b : Bool) (a : Operand) :
    (s.withHalted b).fetch a = s.fetch a := by
  cases a with
  | imm v => rfl
  | reg x => simp only [State.fetch, State.regRead_eq]; rfl

theorem State.withHalted_writeDest (s : State) (b : Bool) (d v : Byte) :
    (s.withHalted b).writeDest d v = (s.writeDest d v).withHalted b := by
  simp only [State.writeDest]
  cases regOf d <;> rfl

theorem State.withHalted_branch (s : State) (b taken : Bool) (t : Byte) :
    (s.withHalted b).branch taken t = (s.branch taken t).withHalted b := by
  cases taken <;> rfl

theorem State.withHalted_swapSlots (s : State) (b : Bool) (i j : Reg) :
    (s.withHalted b).swapSlots i j = (s.swapSlots i j).withHalted b := by
  by_cases h : i = .r6 ∨ j = .r6
  · simp only [State.swapSlots, if_pos h]
  · simp only [State.swapSlots, if_neg h]; rfl

/-- The streaming unit (rule R151), for any decoder. -/
theorem writeUtf8With_withHalted (decoder : List Byte → Option Text) (v : Byte) (s : State) (b : Bool) :
    writeUtf8With decoder v (s.withHalted b) = (writeUtf8With decoder v s).withHalted b := by
  have hacc : (s.withHalted b).acc = s.acc := rfl
  unfold writeUtf8With
  rw [hacc]
  by_cases hv : v = 0
  · rw [if_pos hv, if_pos hv]; rfl
  · rw [if_neg hv, if_neg hv]
    cases decoder (s.acc ++ [v]) <;> rfl

theorem State.withHalted_write (s : State) (b : Bool) (v f : Byte) :
    (s.withHalted b).write v f = (s.write v f).withHalted b := by
  unfold State.write State.writeWith
  cases f.getLsbD 1 <;> cases f.getLsbD 0
  case false.false => exact writeUtf8With_withHalted utf8Decode v s b
  all_goals rfl

/-! ## What an instruction can leave -/

/-- The stack after an instruction (rules R21 and R133 to R135). -/
def stackAfter (i : Instr) (s : State) : List Byte :=
  match i with
  | .push a => s.fetch a :: s.stack
  | .call _ => s.regs.r7 :: s.stack
  | .pop _ => s.stack.tail
  | _ => s.stack

/-- The states an instruction can leave: the kinds of update the rows of the opcode map make (rule R66). `movedPc` says
nothing of where `pc` goes. -/
inductive Leaves (i : Instr) (s : State) : State → Prop where
  /-- ALU, MOV, and POP of a non-empty stack. -/
  | wroteDest {d : Byte} (v : Byte) (hd : destByte i = some d) :
      Leaves i s (State.writeDest { s with stack := stackAfter i s } d v)
  /-- SWAP. -/
  | swapped {x y : Byte} (hi : i = .swap x y) : Leaves i s (s.swapSlots (regOf x) (regOf y)).advancePC
  /-- WRT. -/
  | wrote {a f : Operand} (hi : i = .wrt a f) : Leaves i s (s.write (s.fetch a) (s.fetch f)).advancePC
  /-- HCF. -/
  | halted (hi : i = .hcf) : Leaves i s s.halt
  /-- COND, PUSH, CALL, JRE, class 3, and POP of an empty stack. -/
  | movedPc (pc : Byte) (hi : i ≠ .hcf) : Leaves i s (State.withPc { s with stack := stackAfter i s } pc)

/-- An instruction takes `s` to `t`, and does the same to everything else whatever `halted` holds. -/
structure RunsTo (i : Instr) (s t : State) : Prop where
  runs : exec i s = .next t
  leaves : Leaves i s t
  ignoresHalted : ∀ b, exec i (s.withHalted b) = .next (t.withHalted (if i = .hcf then true else b))

/-- An instruction that is a plain update of the state, HCF apart. -/
theorem runsTo_of_update {i : Instr} {s : State} (update : State → State)
    (hrun : ∀ s, exec i s = .next (update s)) (hl : Leaves i s (update s)) (hi : i ≠ .hcf)
    (hb : ∀ b, update (s.withHalted b) = (update s).withHalted b) : RunsTo i s (update s) :=
  ⟨hrun s, hl, fun b => by rw [hrun, hb, if_neg hi]⟩

/-- ALU and MOV (rules R90 and R131): a value of the operands into `dest`. -/
theorem writeDest_runsTo {i : Instr} {s : State} {d : Byte} (value : State → Byte)
    (hrun : ∀ s, exec i s = .next (s.writeDest d (value s))) (hd : destByte i = some d)
    (hs : stackAfter i s = s.stack) (hv : ∀ b, value (s.withHalted b) = value s) :
    RunsTo i s (s.writeDest d (value s)) := by
  refine runsTo_of_update (fun s => s.writeDest d (value s)) hrun ?_ ?_ fun b => ?_
  · have h := Leaves.wroteDest (s := s) (value s) hd
    rwa [hs] at h
  · rintro rfl
    cases hd
  · rw [hv, State.withHalted_writeDest]

/-- The class ALU (rule R90). -/
theorem execAlu_runsTo {i : Instr} {s : State} {a b : Operand} {d : Byte} (op : Byte → Byte → Byte)
    (hrun : ∀ s, exec i s = execAlu op a b d s) (hd : destByte i = some d) (hs : stackAfter i s = s.stack) :
    ∃ t, RunsTo i s t :=
  ⟨_, writeDest_runsTo (fun s => op (s.fetch a) (s.fetch b)) hrun hd hs
    fun c => by rw [State.withHalted_fetch, State.withHalted_fetch]⟩

/-- The class COND (rule R110). -/
theorem branch_runsTo {i : Instr} {s : State} {target : Byte} (taken : State → Bool)
    (hrun : ∀ s, exec i s = .next (s.branch (taken s) target)) (hi : i ≠ .hcf) (hs : stackAfter i s = s.stack)
    (ht : ∀ b, taken (s.withHalted b) = taken s) : ∃ t, RunsTo i s t := by
  refine ⟨_, runsTo_of_update (fun s => s.branch (taken s) target) hrun ?_ hi fun b => ?_⟩
  · have hmoved : ∀ pc, Leaves i s (s.withPc pc) := fun pc => by
      have hl := Leaves.movedPc (s := s) pc hi
      rwa [hs] at hl
    rcases s.branch_cases (taken s) target with ⟨-, h⟩ | ⟨-, h⟩ <;> rw [h]
    · exact hmoved target
    · exact hmoved (s.regs.r7 + 1)
  · rw [ht, State.withHalted_branch]

/-- A conditional branch (rules R112 to R118), for any test of the two operands. -/
theorem branchOn_runsTo {i : Instr} {s : State} {a b : Operand} {target : Byte} (test : Byte → Byte → Bool)
    (hrun : ∀ s, exec i s = .next (s.branch (test (s.fetch a) (s.fetch b)) target)) (hi : i ≠ .hcf)
    (hs : stackAfter i s = s.stack) : ∃ t, RunsTo i s t :=
  branch_runsTo (fun s => test (s.fetch a) (s.fetch b)) hrun hi hs
    fun c => by rw [State.withHalted_fetch, State.withHalted_fetch]

theorem pop_runsTo (d : Byte) (s : State) : ∃ t, RunsTo (.pop d) s t := by
  cases hs : s.stack with
  | nil =>
    have hl := Leaves.movedPc (i := .pop d) (s := s) (s.regs.r7 + 1) (by simp)
    have hstack : stackAfter (.pop d) s = s.stack := by simp [stackAfter, hs]
    rw [hstack] at hl
    exact ⟨s.advancePC, execPop_of_nil d hs, hl, fun b => execPop_of_nil d (s := s.withHalted b) hs⟩
  | cons v rest =>
    have hl := Leaves.wroteDest (i := .pop d) (s := s) v rfl
    have hstack : stackAfter (.pop d) s = rest := by simp [stackAfter, hs]
    rw [hstack] at hl
    refine ⟨_, execPop_of_cons d hs, hl, fun b => ?_⟩
    rw [if_neg (by simp), ← State.withHalted_writeDest]
    exact execPop_of_cons d (s := s.withHalted b) hs

/-- Every instruction goes on in every state (rule R170), to a state of one of the five kinds. -/
theorem exec_runsTo (i : Instr) (s : State) : ∃ t, RunsTo i s t := by
  cases i with
  | and a b d => exact execAlu_runsTo (fun x y => x &&& y) (fun _ => rfl) rfl rfl
  | ror a b d => exact execAlu_runsTo rotateRight (fun _ => rfl) rfl rfl
  | add a b d => exact execAlu_runsTo (fun x y => x + y) (fun _ => rfl) rfl rfl
  | xor a b d => exact execAlu_runsTo (fun x y => x ^^^ y) (fun _ => rfl) rfl rfl
  | or a b d => exact execAlu_runsTo (fun x y => x ||| y) (fun _ => rfl) rfl rfl
  | rol a b d => exact execAlu_runsTo rotateLeft (fun _ => rfl) rfl rfl
  | sub a b d => exact execAlu_runsTo (fun x y => x - y) (fun _ => rfl) rfl rfl
  | not a d =>
    exact ⟨_, writeDest_runsTo (fun s => ~~~(s.fetch a)) (fun _ => rfl) rfl rfl fun b => by
      rw [State.withHalted_fetch]⟩
  | jmp t => exact branch_runsTo (fun _ => testJmp) (fun _ => rfl) (by simp) rfl fun _ => rfl
  | jne a b t => exact branchOn_runsTo testJne (fun _ => rfl) (by simp) rfl
  | jge a b t => exact branchOn_runsTo testJge (fun _ => rfl) (by simp) rfl
  | jgt a b t => exact branchOn_runsTo testJgt (fun _ => rfl) (by simp) rfl
  | nop => exact branch_runsTo (fun _ => testNop) (fun _ => rfl) (by simp) rfl fun _ => rfl
  | jeq a b t => exact branchOn_runsTo testJeq (fun _ => rfl) (by simp) rfl
  | jlt a b t => exact branchOn_runsTo testJlt (fun _ => rfl) (by simp) rfl
  | jle a b t => exact branchOn_runsTo testJle (fun _ => rfl) (by simp) rfl
  | mov a d =>
    exact ⟨_, writeDest_runsTo (fun s => s.fetch a) (fun _ => rfl) rfl rfl fun b => s.withHalted_fetch b a⟩
  | swap x y =>
    exact ⟨_, runsTo_of_update (fun s => (s.swapSlots (regOf x) (regOf y)).advancePC) (fun _ => rfl)
      (.swapped rfl) (by simp) fun b => by rw [State.withHalted_swapSlots]; rfl⟩
  | push a =>
    exact ⟨_, runsTo_of_update (fun s => (s.push (s.fetch a)).advancePC) (fun _ => rfl)
      (.movedPc (s.regs.r7 + 1) (by simp)) (by simp) fun b => by rw [State.withHalted_fetch]; rfl⟩
  | pop d => exact pop_runsTo d s
  | wrt a f =>
    exact ⟨_, runsTo_of_update (fun s => (s.write (s.fetch a) (s.fetch f)).advancePC) (fun _ => rfl)
      (.wrote rfl) (by simp) fun b => by
        rw [State.withHalted_fetch, State.withHalted_fetch, State.withHalted_write]; rfl⟩
  | call a =>
    exact ⟨_, runsTo_of_update (fun s => (s.push s.pc).jump (s.fetch a)) (fun _ => rfl)
      (.movedPc (s.fetch a) (by simp)) (by simp) fun b => by rw [State.withHalted_fetch]; rfl⟩
  | jre => exact ⟨_, rfl, .movedPc _ (by simp), fun _ => rfl⟩
  | hcf => exact ⟨_, rfl, .halted rfl, fun _ => rfl⟩
  | class3 => exact ⟨_, rfl, .movedPc (s.regs.r7 + 1) (by simp), fun _ => rfl⟩

theorem runsTo_of_exec {i : Instr} {s t : State} (h : exec i s = .next t) : RunsTo i s t := by
  obtain ⟨t', ht⟩ := exec_runsTo i s
  obtain rfl : t' = t := Host.Outcome.next.inj (ht.runs.symm.trans h)
  exact ht

theorem leaves_of_exec {i : Instr} {s t : State} (h : exec i s = .next t) : Leaves i s t := (runsTo_of_exec h).leaves

/-! ## Each part of the state after an instruction -/

@[simp] theorem State.write_regs (s : State) (v f : Byte) : (s.write v f).regs = s.regs := by
  rw [State.write_frame]
@[simp] theorem State.write_mem (s : State) (v f : Byte) : (s.write v f).mem = s.mem := by
  rw [State.write_frame]
@[simp] theorem State.write_stack (s : State) (v f : Byte) : (s.write v f).stack = s.stack := by
  rw [State.write_frame]

@[simp] theorem State.swapSlots_mem (s : State) (i j : Reg) : (s.swapSlots i j).mem = s.mem := by
  rw [State.swapSlots_frame]
@[simp] theorem State.swapSlots_stack (s : State) (i j : Reg) : (s.swapSlots i j).stack = s.stack := by
  rw [State.swapSlots_frame]

theorem State.withPc_get (s : State) (pc : Byte) {j : Reg} (hj : j ≠ .r7) :
    (s.withPc pc).regs.get j = s.regs.get j := by
  change (s.regs.set .r7 pc).get j = s.regs.get j
  rw [Slots.get_set, if_neg hj]

theorem Leaves.stack_eq {i : Instr} {s t : State} (h : Leaves i s t) : t.stack = stackAfter i s := by
  cases h with
  | wroteDest v hd => exact State.writeDest_stack _ _ _
  | swapped hi => subst hi; exact State.swapSlots_stack s _ _
  | wrote hi => subst hi; exact State.write_stack s _ _
  | halted hi => subst hi; rfl
  | movedPc pc hi => rfl

/-- A cell that reads differently is the one `regs[4]` addressed, and `dest` named index 5 (rule R41). -/
theorem Leaves.memRead_changed {i : Instr} {s t : State} (h : Leaves i s t) {a : Byte}
    (ha : t.memRead a ≠ s.memRead a) : NamesDest i 5 ∧ a = s.regs.r4 := by
  cases h with
  | @wroteDest d v hd =>
    rw [State.writeDest_memRead] at ha
    split at ha
    next hc => exact ⟨(namesDest_index_iff i .r5).mpr ⟨d, hd, hc.1⟩, hc.2⟩
    next => exact absurd rfl ha
  | swapped hi => exact absurd (State.memRead_congr (by simp) a) ha
  | wrote hi => exact absurd (State.memRead_congr (by simp) a) ha
  | halted hi => exact absurd rfl ha
  | movedPc pc hi => exact absurd rfl ha

/-- No instruction breaks the canonical form of the memory. -/
theorem Leaves.mem_wf {i : Instr} {s t : State} (h : Leaves i s t) (hs : Memory.wf s.mem = true) :
    Memory.wf t.mem = true := by
  cases h with
  | @wroteDest d v hd => exact State.regWrite_wf { s with stack := stackAfter i s } (regOf d) v hs
  | swapped hi => simpa using hs
  | wrote hi => simpa using hs
  | halted hi => exact hs
  | movedPc pc hi => exact hs

/-- How an instruction can change the slot `j`: the register `dest` names, the read-back of the shadow, or a SWAP. -/
inductive ChangesSlot (i : Instr) (t : State) (j : Reg) : Prop where
  | dest {d : Byte} (hd : destByte i = some d) (hj : regOf d = j) (h5 : j ≠ .r5)
  | readBack {d : Byte} (hd : destByte i = some d) (h4 : regOf d = .r4) (hj : j = .r5)
      (hr : t.regs.r5 = t.memRead t.regs.r4)
  | swap (hs : NamesSwap i j.index)

/-- A write to `dest` changes a slot other than `pc` in the two ways of rule R13, and never slot 6. -/
theorem writeDest_changesSlot {i : Instr} {s : State} {d : Byte} (v : Byte) (hd : destByte i = some d) {j : Reg}
    (hj : j ≠ .r7) (h : (s.writeDest d v).regs.get j ≠ s.regs.get j) :
    j ≠ .r6 ∧ ChangesSlot i (s.writeDest d v) j := by
  rw [State.writeDest_get s d v hj] at h
  split at h
  next hc =>
    obtain ⟨rfl, h4⟩ := hc
    refine ⟨by decide, .readBack hd h4 rfl ?_⟩
    have hr5 : (s.writeDest d v).regs.get .r5 = s.memRead v := by
      rw [State.writeDest_get s d v hj, if_pos ⟨rfl, h4⟩]
    have hr4 : (s.writeDest d v).regs.get .r4 = v := by
      rw [State.writeDest_get s d v (by decide), h4]
      rfl
    rw [Slots.get_r5] at hr5
    rw [Slots.get_r4] at hr4
    rw [hr5, hr4, State.writeDest_memRead, h4, if_neg (by simp)]
  next =>
    split at h
    next hc =>
      obtain ⟨rfl, h5, h6⟩ := hc
      exact ⟨h6, .dest hd rfl h5⟩
    next => exact absurd rfl h

/-- A SWAP changes only slots it names, and never slot 6 (rule R132). -/
theorem swapSlots_changesSlot {s : State} {x y : Byte} {j : Reg} (hj : j ≠ .r7)
    (h : (s.swapSlots (regOf x) (regOf y)).advancePC.regs.get j ≠ s.regs.get j) :
    j ≠ .r6 ∧ NamesSwap (.swap x y) j.index := by
  rw [State.swapSlots_advancePC_get s _ _ hj] at h
  split at h
  next => exact absurd rfl h
  next h6 =>
    obtain ⟨hx6, hy6⟩ := not_or.mp h6
    split at h
    next hy => exact ⟨hy ▸ hy6, (namesSwap_index_iff _ j).mpr ⟨x, y, rfl, .inr hy.symm⟩⟩
    next =>
      split at h
      next hx => exact ⟨hx ▸ hx6, (namesSwap_index_iff _ j).mpr ⟨x, y, rfl, .inl hx.symm⟩⟩
      next => exact absurd rfl h

/-- A slot other than `pc` changes in those ways only, and slot 6 in none (rules R13, R15, R16 and R132). -/
theorem Leaves.slot_changed {i : Instr} {s t : State} (h : Leaves i s t) {j : Reg} (hj : j ≠ .r7)
    (hne : t.regs.get j ≠ s.regs.get j) : j ≠ .r6 ∧ ChangesSlot i t j := by
  cases h with
  | wroteDest v hd => exact writeDest_changesSlot v hd hj hne
  | swapped hi =>
    obtain ⟨h6, hs⟩ := swapSlots_changesSlot hj hne
    exact ⟨h6, .swap (hi ▸ hs)⟩
  | wrote hi =>
    rw [State.advancePC_regs, State.write_regs, Slots.get_set, if_neg hj] at hne
    exact absurd rfl hne
  | halted hi => exact absurd rfl hne
  | movedPc pc hi => exact absurd (State.withPc_get _ pc hj) hne

theorem Leaves.r6_eq {i : Instr} {s t : State} (h : Leaves i s t) : t.regs.r6 = s.regs.r6 := by
  by_contra hne
  exact (h.slot_changed (j := .r6) (by decide) hne).1 rfl

/-- Only HCF halts (rule R176). -/
theorem RunsTo.halted_eq {i : Instr} {s t : State} (h : RunsTo i s t) :
    t.halted = if i = .hcf then true else s.halted := by
  have ht : t = t.withHalted (if i = .hcf then true else s.halted) :=
    Host.Outcome.next.inj (h.runs.symm.trans (h.ignoresHalted s.halted))
  exact congrArg State.halted ht

end Sys2Proof.Machine
end

section
/-! SUPPORT. The invariant of the core (10_state.md) under every instruction, WRT and its decoder included. -/

namespace Sys2Proof.Machine

/-! ## The decoder: a text whose beginnings do not decode is one character -/

theorem scalar1_isScalar {b1 : Byte} {c : Scalar} (h : scalar1 b1 = some c) : IsScalar c := by
  simp only [scalar1, inRange, Option.ite_none_right_eq_some, Bool.and_eq_true, decide_eq_true_eq,
    Option.some.injEq] at h
  obtain ⟨h, rfl⟩ := h
  unfold IsScalar
  omega

theorem scalar2_isScalar {b1 b2 : Byte} {c : Scalar} (h : scalar2 b1 b2 = some c) : IsScalar c := by
  simp only [scalar2, contBits, Option.ite_none_right_eq_some, Option.some.injEq] at h
  obtain ⟨h, rfl⟩ := h
  unfold IsScalar
  omega

theorem scalar3_isScalar {b1 b2 b3 : Byte} {c : Scalar} (h : scalar3 b1 b2 b3 = some c) : IsScalar c := by
  simp only [scalar3, second3, isCont, inRange, contBits, Option.ite_none_right_eq_some, Bool.and_eq_true,
    Bool.or_eq_true, decide_eq_true_eq, Option.some.injEq] at h
  obtain ⟨h, rfl⟩ := h
  unfold IsScalar
  omega

theorem scalar4_isScalar {b1 b2 b3 b4 : Byte} {c : Scalar} (h : scalar4 b1 b2 b3 b4 = some c) : IsScalar c := by
  simp only [scalar4, second4, isCont, inRange, contBits, Option.ite_none_right_eq_some, Bool.and_eq_true,
    Bool.or_eq_true, decide_eq_true_eq, Option.some.injEq] at h
  obtain ⟨h, rfl⟩ := h
  unfold IsScalar
  omega

/-- The bytes are a non-empty sequence of one character, then bytes that decode, and the text is that character and
theirs. -/
def DecodesFromHead (bytes : List Byte) (x : Text) : Prop :=
  ∃ seq rest c text, bytes = seq ++ rest ∧ seq ≠ [] ∧ x = c :: text ∧ IsScalar c
    ∧ scalarsOf seq = some [c] ∧ scalarsOf rest = some text

theorem decodesFromHead_append {seq rest : List Byte} {c : Scalar} {x : Text} (hne : seq ≠ []) (hc : IsScalar c)
    (hseq : scalarsOf seq = some [c]) (h : (scalarsOf rest).map (c :: ·) = some x) :
    DecodesFromHead (seq ++ rest) x := by
  obtain ⟨text, ht, rfl⟩ := Option.map_eq_some_iff.mp h
  exact ⟨seq, rest, c, text, rfl, hne, rfl, hc, hseq, ht⟩

/-- What decodes does so by the row its first byte selects: one to four bytes, tried in that order. -/
theorem decodesFromHead_of_scalarsOf {b1 : Byte} {t1 : List Byte} {x : Text} (h : scalarsOf (b1 :: t1) = some x) :
    DecodesFromHead (b1 :: t1) x := by
  rw [scalarsOf_cons] at h
  cases h1 : scalar1 b1 with
  | some c =>
    simp only [h1] at h
    exact decodesFromHead_append (seq := [b1]) (by simp) (scalar1_isScalar h1) (by simp [scalarsOf, h1]) h
  | none =>
    rcases t1 with _ | ⟨b2, t2⟩
    · simp [h1] at h
    cases h2 : scalar2 b1 b2 with
    | some c =>
      simp only [h1, h2] at h
      exact decodesFromHead_append (seq := [b1, b2]) (by simp) (scalar2_isScalar h2) (by simp [scalarsOf, h1, h2]) h
    | none =>
      rcases t2 with _ | ⟨b3, t3⟩
      · simp [h1, h2] at h
      cases h3 : scalar3 b1 b2 b3 with
      | some c =>
        simp only [h1, h2, h3] at h
        exact decodesFromHead_append (seq := [b1, b2, b3]) (by simp) (scalar3_isScalar h3)
          (by simp [scalarsOf, h1, h2, h3]) h
      | none =>
        rcases t3 with _ | ⟨b4, t4⟩
        · simp [h1, h2, h3] at h
        cases h4 : scalar4 b1 b2 b3 b4 with
        | none => simp [h1, h2, h3, h4] at h
        | some c =>
          simp only [h1, h2, h3, h4] at h
          exact decodesFromHead_append (seq := [b1, b2, b3, b4]) (by simp) (scalar4_isScalar h4)
            (by simp [scalarsOf, h1, h2, h3, h4]) h

theorem utf8Decode_of_ne_nil {bytes : List Byte} (h : bytes ≠ []) : utf8Decode bytes = scalarsOf bytes := by
  cases bytes with
  | nil => exact absurd rfl h
  | cons b bs => rfl

/-- No beginning decodes (rule R157 c): each was tried when it was the whole. -/
def Pending (bytes : List Byte) : Prop := ∀ p q, bytes = p ++ q → utf8Decode p = none

/-- A last byte that does not complete a text leaves the bytes pending. -/
theorem Pending.concat {bytes : List Byte} {v : Byte} (h : Pending bytes) (hv : utf8Decode (bytes ++ [v]) = none) :
    Pending (bytes ++ [v]) := by
  intro p q hpq
  rcases q.eq_nil_or_concat with rfl | ⟨q', w, rfl⟩
  · rw [List.append_nil] at hpq
    rwa [← hpq]
  · rw [List.concat_eq_append, ← List.append_assoc] at hpq
    exact h p q' (List.append_inj' hpq rfl).1

/-- A last byte that completes a text on pending bytes completes exactly one character: a first character with bytes
after it would have been a beginning that decodes. -/
theorem Pending.decode_concat {bytes : List Byte} {v : Byte} {x : Text} (h : Pending bytes)
    (hx : utf8Decode (bytes ++ [v]) = some x) : ∃ c, x = [c] ∧ IsScalar c := by
  obtain ⟨b, bs, hb⟩ : ∃ b bs, bytes ++ [v] = b :: bs := List.exists_cons_of_ne_nil (by simp)
  rw [hb] at hx
  obtain ⟨seq, rest, c, text, happ, hne, rfl, hc, hseq, hrest⟩ := decodesFromHead_of_scalarsOf hx
  rcases rest.eq_nil_or_concat with rfl | ⟨rest', w, rfl⟩
  · cases hrest
    exact ⟨c, rfl, hc⟩
  · rw [← hb, List.concat_eq_append, ← List.append_assoc] at happ
    have hnone := h seq rest' (List.append_inj' happ rfl).1
    rw [utf8Decode_of_ne_nil hne, hseq] at hnone
    cases hnone

/-! ## The invariant of the output unit -/

/-- The part of the invariant that is about the output unit (rules R24, R156 and R157 c). -/
structure UnitInv (s : State) : Prop where
  accNoZero : ∀ b ∈ s.acc, b ≠ 0
  accPending : Pending s.acc
  outIsTrace : s.out = visibleText s.trace
  traceOk : ∀ e ∈ s.trace, e.Ok

theorem inv_iff (s : State) : Inv s ↔ Memory.wf s.mem = true ∧ s.regs.r6 = 0 ∧ UnitInv s :=
  ⟨fun ⟨hmem, h6, hz, hp, hout, hok⟩ => ⟨hmem, h6, hz, hp, hout, hok⟩,
    fun ⟨hmem, h6, hz, hp, hout, hok⟩ => ⟨hmem, h6, hz, hp, hout, hok⟩⟩

/-- The buffer follows the trace by one event. -/
theorem visibleText_concat (trace : List OutEvent) (e : OutEvent) :
    visibleText (trace ++ [e]) = e.apply (visibleText trace) := by
  simp [visibleText]

theorem pending_nil : Pending [] := fun p q h => by
  obtain ⟨rfl, -⟩ := List.append_eq_nil_iff.mp h.symm
  rfl

/-- One event more, with an accumulator that keeps its clauses. -/
theorem UnitInv.event {s t : State} (h : UnitInv s) {e : OutEvent} (he : e.Ok) (hacc : t.acc = s.acc ∨ t.acc = [])
    (hout : t.out = e.apply s.out) (htrace : t.trace = s.trace ++ [e]) : UnitInv t where
  accNoZero := by
    rcases hacc with hacc | hacc <;> rw [hacc]
    · exact h.accNoZero
    · simp
  accPending := by
    rcases hacc with hacc | hacc <;> rw [hacc]
    · exact h.accPending
    · exact pending_nil
  outIsTrace := by rw [hout, htrace, visibleText_concat, h.outIsTrace]
  traceOk := by
    rw [htrace]
    exact List.forall_mem_append.mpr ⟨h.traceOk, List.forall_mem_singleton.mpr he⟩

theorem UnitInv.writeUtf8 {s : State} (h : UnitInv s) (v : Byte) : UnitInv (writeUtf8 v s) := by
  unfold Machine.writeUtf8
  rcases writeUtf8With_cases utf8Decode v s with ⟨-, hw⟩ | ⟨x, -, hx, hw⟩ | ⟨hv, hx, hw⟩ <;> rw [hw]
  · exact h.event (e := .clear) trivial (.inr rfl) rfl rfl
  · exact h.event (e := .emit x) (h.accPending.decode_concat hx) (.inr rfl) rfl rfl
  · exact {
      accNoZero := List.forall_mem_append.mpr ⟨h.accNoZero, List.forall_mem_singleton.mpr hv⟩
      accPending := h.accPending.concat hx
      outIsTrace := h.outIsTrace
      traceOk := h.traceOk }

/-- The one character of formats 1 to 3 (rules R153 to R155). -/
theorem decDigit_ok (v : Byte) : (OutEvent.emit (decDigit v)).Ok :=
  ⟨_, rfl, by unfold IsScalar questionMark; split <;> omega⟩

theorem letter_ok (v : Byte) : (OutEvent.emit (letter v)).Ok :=
  ⟨_, rfl, by unfold IsScalar questionMark; split <;> omega⟩

theorem hexDigit_ok (v : Byte) : (OutEvent.emit (hexDigit v)).Ok :=
  ⟨_, rfl, by unfold IsScalar questionMark; split_ifs <;> omega⟩

theorem UnitInv.write {s : State} (h : UnitInv s) (v f : Byte) : UnitInv (s.write v f) := by
  rcases s.write_cases v f with hw | hw | hw | hw <;> rw [hw]
  · exact h.writeUtf8 v
  · exact h.event (decDigit_ok v) (.inl rfl) rfl rfl
  · exact h.event (letter_ok v) (.inl rfl) rfl rfl
  · exact h.event (hexDigit_ok v) (.inl rfl) rfl rfl

/-- The clauses about the unit look at the unit alone. -/
theorem UnitInv.withUnit {u : State} (h : UnitInv u) (s : State) : UnitInv (s.withUnit u) :=
  ⟨h.accNoZero, h.accPending, h.outIsTrace, h.traceOk⟩

/-! ## The invariant of the core -/

theorem exec_keeps_unitInv {i : Instr} {s t : State} (h : exec i s = .next t) (hs : UnitInv s) : UnitInv t := by
  by_cases hi : ∃ a f, i = .wrt a f
  · obtain ⟨a, f, rfl⟩ := hi
    cases h.symm.trans (execWrtWith_eq_withUnit utf8Decode a f s)
    exact (hs.write (s.fetch a) (s.fetch f)).withUnit s.advancePC
  · have hk := (exec_blindToUnit i fun a f e => hi ⟨a, f, e⟩).keeps_unit h
    rw [← hk]
    exact hs.withUnit t

theorem exec_keeps_inv {i : Instr} {s t : State} (h : exec i s = .next t) (hs : Inv s) : Inv t := by
  obtain ⟨hmem, h6, hunit⟩ := (inv_iff s).mp hs
  have hl := leaves_of_exec h
  exact (inv_iff t).mpr ⟨hl.mem_wf hmem, hl.r6_eq.trans h6, exec_keeps_unitInv h hunit⟩

theorem halt_keeps_inv {s : State} (hs : Inv s) : Inv s.halt :=
  ⟨hs.memCanonical, hs.reservedZero, hs.accNoZero, hs.accPending, hs.outIsTrace, hs.traceOk⟩

theorem load_inv (bytes : List Byte) : Inv (State.load bytes) where
  memCanonical := rfl
  reservedZero := rfl
  accNoZero := by simp [State.load]
  accPending := pending_nil
  outIsTrace := rfl
  traceOk := by simp [State.load]

end Sys2Proof.Machine
end

section
/-! The statements of 10_state.md, settled. -/

namespace Sys2Proof.Proofs

open Sys2Proof.Machine

/-- Settles O9: the three things a step can do, each of which keeps the invariant. -/
theorem invariantKeptByEveryStep : Obligations.InvariantKeptByEveryStep := by
  intro s t hs ht
  rcases stepBy_cases exec s with ⟨-, h⟩ | ⟨-, -, h⟩ | ⟨w, -, -, h⟩
  · cases ht.symm.trans h
    exact hs
  · cases ht.symm.trans h
    exact halt_keeps_inv hs
  · exact exec_keeps_inv (h.symm.trans ht) hs

/-- Settles O16: the case of O51 where both runs have the default decoder. -/
theorem coreIgnoresTheOutputUnit : Obligations.CoreIgnoresTheOutputUnit := by
  intro k s s' t hss' ht
  have h := decoderReachesOnlyTheOutputUnit utf8Decode utf8Decode k s s' t hss'
  rw [stepNWith, stepNWith, stepWith_utf8Decode] at h
  exact h ht

/-- Settles O5, by the redirection of index 5 and the number of the register a byte names. -/
theorem operandFetchValues : Obligations.OperandFetchValues := by
  intro s b
  refine ⟨rfl, ?_⟩
  have hindex : b.toNat % 8 = (regOf b).index := (regOf_eq_iff b _).mp rfl
  have h5 : b.toNat % 8 = 5 ↔ regOf b = .r5 := (regOf_eq_iff b .r5).symm
  simp only [h5]
  rw [State.fetch, State.regRead_eq, hindex, observe_regs_getD_index]

/-- Settles O12: a step is one of three things, and `RunsTo` says that an instruction sets `halted` only as HCF and
reads it never. -/
theorem haltedIsSetInExactlyTwoWays : Obligations.HaltedIsSetInExactlyTwoWays := by
  refine ⟨fun s t ht hh => ?_, fun s t ht hh => ?_, fun i s t b h => (runsTo_of_exec h).ignoresHalted b, fun _ => rfl⟩
  · cases ht.symm.trans (stepBy_of_halted exec hh)
    exact hh
  · cases hf : fetchWord s.program s.regs.r7 with
    | none =>
      cases ht.symm.trans (stepBy_of_fetch_none exec hh hf)
      simp
    | some w =>
      have hrun := runsTo_of_exec ((stepBy_of_fetch_some exec hh hf).symm.trans ht)
      rw [hrun.halted_eq, hh]
      simp

/-- Settles O39. -/
theorem memoryChangesOnlyThroughR5 : Obligations.MemoryChangesOnlyThroughR5 :=
  fun _ _ _ _ h ha => (leaves_of_exec h).memRead_changed ha

/-- Settles O40: the statement's list of stacks is `stackAfter`. -/
theorem stackChangesOnlyByPushPopCall : Obligations.StackChangesOnlyByPushPopCall := by
  intro i s t h
  rw [(leaves_of_exec h).stack_eq]
  cases i <;> rfl

/-- Settles O41: of the ways a slot can change, a write to `dest` does not reach slot 5. -/
theorem shadowChangesInExactlyTwoWays : Obligations.ShadowChangesInExactlyTwoWays := by
  intro i s t h hne
  obtain ⟨-, hc⟩ := (leaves_of_exec h).slot_changed (j := .r5) (by decide) hne
  cases hc with
  | dest hd hj h5 => exact absurd rfl h5
  | readBack hd h4 _ hr => exact .inl ⟨(namesDest_index_iff i .r4).mpr ⟨_, hd, h4⟩, hr⟩
  | swap hs => exact .inr hs

/-- Settles O42: the read-back reaches slot 5 only, so slots 0 to 4 change by `dest` or by SWAP. -/
theorem slotsChangeOnlyWhereNamed : Obligations.SlotsChangeOnlyWhereNamed := by
  intro i s t h
  have hl := leaves_of_exec h
  refine ⟨hl.r6_eq, fun k hk hne => ?_⟩
  obtain ⟨r, rfl⟩ : ∃ r : Reg, r.index = k := by
    interval_cases k
    exacts [⟨.r0, rfl⟩, ⟨.r1, rfl⟩, ⟨.r2, rfl⟩, ⟨.r3, rfl⟩, ⟨.r4, rfl⟩]
  rw [observe_regs_getD_index, observe_regs_getD_index] at hne
  have h7 : r ≠ .r7 := by rintro rfl; exact absurd hk (by decide)
  obtain ⟨-, hc⟩ := hl.slot_changed h7 hne
  cases hc with
  | dest hd hj => exact .inl ((namesDest_index_iff i r).mpr ⟨_, hd, hj⟩)
  | readBack _ _ hj => subst hj; exact absurd hk (by decide)
  | swap hs => exact .inr hs

/-- Settles O43: what is no WRT carries the unit through, and formats 1 to 3 only emit. -/
theorem outputChangesOnlyByWrt : Obligations.OutputChangesOnlyByWrt := by
  intro i s t h
  refine ⟨fun hi => ?_, ?_⟩
  · rw [← (exec_blindToUnit i hi).keeps_unit h]
    exact ⟨rfl, rfl, rfl⟩
  · rintro a f rfl hf
    cases h.symm.trans (execWrtWith_eq_withUnit utf8Decode a f s)
    change (s.write (s.fetch a) (s.fetch f)).acc = s.acc
    rw [State.write_eq, if_neg hf]
    split_ifs <;> rfl

/-- Settles O7. -/
theorem loadGivesTheResetState : Obligations.LoadGivesTheResetState :=
  ⟨fun _ => ⟨rfl, fun _ => rfl, rfl, rfl, rfl, rfl, rfl, rfl⟩, rfl⟩

/-- Settles O8: reset is a load. -/
theorem loadMeetsTheInvariant : Obligations.LoadMeetsTheInvariant := ⟨load_inv [], load_inv⟩

end Sys2Proof.Proofs
end

section
/-! SUPPORT. Memory as a part of the state that can be exchanged (rule R41): which of its cells an instruction reads, and
which one it writes. The program as a part no instruction writes (rule R51). -/

namespace Sys2Proof.Machine

/-! ## The cells as the host sees them -/

theorem observe_mem_length (s : State) : s.observe.mem.length = 256 := by
  simp [State.observe, Config.memSize]

/-- The host reads every cell MemRead can address (rules R27 and R41). -/
theorem observe_mem_getElem? (s : State) (addr : Byte) : s.observe.mem[addr.toNat]? = some (s.memRead addr) := by
  have hrange : (List.range Config.memSize)[addr.toNat]? = some addr.toNat :=
    List.getElem?_range (address_lt_memSize addr)
  simp only [State.observe, List.getElem?_map, hrange, Option.map_some, State.memRead]

/-! ## Exchanging the memory -/

/-- The state with another memory. -/
def State.withMem (s : State) (m : Memory) : State := { s with mem := m }

/-- The other memory holds at one address what the state's own does. -/
def State.AgreesAt (s : State) (m : Memory) (a : Byte) : Prop := m.read a.toNat = s.memRead a

theorem State.withMem_of_mem_eq {s : State} {m : Memory} (h : s.mem = m) : s.withMem m = s := by
  subst h
  rfl

/-- An operand fetch reads no cell but the one `regs[4]` addresses (rules R12 and R14). -/
theorem State.withMem_fetch {s : State} {m : Memory} (h : s.AgreesAt m s.regs.r4) (a : Operand) :
    (s.withMem m).fetch a = s.fetch a := by
  cases a with
  | imm v => rfl
  | reg b =>
    simp only [State.fetch, State.regRead_eq]
    split
    · exact h
    · rfl

/-- A write to `dest` that is the store through r5 (rule R13). -/
theorem State.withMem_writeDest_r5 (s : State) (m : Memory) {d : Byte} (v : Byte) (hd : regOf d = .r5) :
    (s.withMem m).writeDest d v = (s.writeDest d v).withMem (m.write s.regs.r4.toNat v) := by
  simp only [State.writeDest, hd]
  rfl

/-- Any other write to `dest` reads at most the new `regs[4]`, for the shadow (rules R13 and R16). -/
theorem State.withMem_writeDest {s : State} {m : Memory} {d v : Byte} (hd : regOf d ≠ .r5)
    (h : s.AgreesAt m (s.writeDest d v).regs.r4) : (s.withMem m).writeDest d v = (s.writeDest d v).withMem m := by
  simp only [State.writeDest] at h ⊢
  cases hr : regOf d
  case r5 => exact absurd hr hd
  case r4 =>
    rw [hr] at h
    have hshadow : (s.withMem m).memRead v = s.memRead v := h
    change State.advancePC (((s.withMem m).setSlot .r4 v).setSlot .r5 ((s.withMem m).memRead v)) = _
    rw [hshadow]
    rfl
  all_goals rfl

theorem State.writeDest_mem_of_r5 (s : State) {d : Byte} (v : Byte) (hd : regOf d = .r5) :
    (s.writeDest d v).mem = s.mem.write s.regs.r4.toNat v :=
  congrArg State.mem (s.withMem_writeDest_r5 s.mem v hd)

theorem State.writeDest_mem_of_ne_r5 (s : State) {d : Byte} (v : Byte) (hd : regOf d ≠ .r5) :
    (s.writeDest d v).mem = s.mem := by
  have h : s.writeDest d v = (s.writeDest d v).withMem s.mem := State.withMem_writeDest (m := s.mem) hd rfl
  exact (congrArg State.mem h).trans rfl

theorem State.withMem_branch (s : State) (m : Memory) (taken : Bool) (t : Byte) :
    (s.withMem m).branch taken t = (s.branch taken t).withMem m := by
  cases taken <;> rfl

@[simp] theorem State.branch_mem (s : State) (taken : Bool) (t : Byte) : (s.branch taken t).mem = s.mem := by
  cases taken <;> rfl

theorem State.withMem_swapSlots (s : State) (m : Memory) (i j : Reg) :
    (s.withMem m).swapSlots i j = (s.swapSlots i j).withMem m := by
  by_cases h : i = .r6 ∨ j = .r6
  · simp only [State.swapSlots, if_pos h]
  · simp only [State.swapSlots, if_neg h]; rfl

/-! ## The output unit by itself -/

/-- The streaming unit looks at the unit alone (rule R151), for any decoder. -/
theorem writeUtf8With_withUnit (decoder : List Byte → Option Text) (v : Byte) (s u : State) :
    writeUtf8With decoder v (s.withUnit u) = s.withUnit (writeUtf8With decoder v u) := by
  have hacc : (s.withUnit u).acc = u.acc := rfl
  unfold writeUtf8With
  rw [hacc]
  by_cases hv : v = 0
  · rw [if_pos hv, if_pos hv]; rfl
  · rw [if_neg hv, if_neg hv]
    cases decoder (u.acc ++ [v]) <;> rfl

/-- So does every format of WRT (rule R150). -/
theorem State.withUnit_writeWith (decoder : List Byte → Option Text) (s u : State) (v f : Byte) :
    (s.withUnit u).writeWith decoder v f = s.withUnit (u.writeWith decoder v f) := by
  rw [State.writeWith_eq, State.writeWith_eq]
  split_ifs
  · exact writeUtf8With_withUnit decoder v s u
  all_goals rfl

/-! ## What an instruction does to the memory -/

/-- How a meaning that takes `s` to `t` uses the memory (rule R41): it leaves it alone and reads at most the cells that
`regs[4]` addresses before and after, or it writes one byte where `regs[4]` points before and reads at most that cell. -/
inductive UsesMemory (execute : State → Host.Outcome State Fault Refusal) (s t : State) : Prop where
  | leaves (hmem : t.mem = s.mem)
      (hrun : ∀ m, s.AgreesAt m s.regs.r4 → s.AgreesAt m t.regs.r4 → execute (s.withMem m) = .next (t.withMem m))
  | stores (v : Byte) (hmem : t.mem = s.mem.write s.regs.r4.toNat v)
      (hrun : ∀ m, s.AgreesAt m s.regs.r4 → execute (s.withMem m) = .next (t.withMem (m.write s.regs.r4.toNat v)))

/-- The meaning does take `s` to `t`: the case of the state's own memory. -/
theorem UsesMemory.runs {execute : State → Host.Outcome State Fault Refusal} {s t : State}
    (h : UsesMemory execute s t) : execute s = .next t := by
  cases h with
  | leaves hmem hrun => exact (hrun s.mem rfl rfl).trans (by rw [State.withMem_of_mem_eq hmem])
  | stores v hmem hrun => exact (hrun s.mem rfl).trans (by rw [State.withMem_of_mem_eq hmem])

/-- A value into `dest`, from a state that differs from `s` at most in its stack (rules R90, R131 and R134). -/
theorem usesMemory_of_writeDest {execute : State → Host.Outcome State Fault Refusal} {s : State} {d v : Byte}
    (stack : List Byte)
    (hrun : ∀ m, s.AgreesAt m s.regs.r4 →
      execute (s.withMem m) = .next ((State.withMem { s with stack := stack } m).writeDest d v)) :
    UsesMemory execute s (State.writeDest { s with stack := stack } d v) := by
  by_cases hd : regOf d = .r5
  · exact .stores v (State.writeDest_mem_of_r5 _ v hd) fun m hm => by
      rw [hrun m hm, State.withMem_writeDest_r5 _ m v hd]
  · exact .leaves (State.writeDest_mem_of_ne_r5 _ v hd) fun m hm hback => by
      rw [hrun m hm, State.withMem_writeDest hd hback]

/-- The class ALU (rule R90). -/
theorem execAlu_usesMemory (op : Byte → Byte → Byte) (a b : Operand) (d : Byte) (s : State) :
    UsesMemory (execAlu op a b d) s (s.writeDest d (op (s.fetch a) (s.fetch b))) :=
  usesMemory_of_writeDest s.stack fun m hm => by
    rw [execAlu, State.withMem_fetch hm, State.withMem_fetch hm]

/-- NOT and MOV (rules R98 and R131): a function of one operand into `dest`. -/
theorem writeDest_usesMemory (op : Byte → Byte) (a : Operand) (d : Byte) (s : State) :
    UsesMemory (fun s => .next (s.writeDest d (op (s.fetch a)))) s (s.writeDest d (op (s.fetch a))) :=
  usesMemory_of_writeDest s.stack fun m hm => by rw [State.withMem_fetch hm]

/-- The class COND (rule R110), for any test of the two operands. -/
theorem branch_usesMemory (test : Byte → Byte → Bool) (a b : Operand) (t : Byte) (s : State) :
    UsesMemory (fun s => .next (s.branch (test (s.fetch a) (s.fetch b)) t)) s
      (s.branch (test (s.fetch a) (s.fetch b)) t) :=
  .leaves (State.branch_mem _ _ _) fun m hm _ => by
    rw [State.withMem_fetch hm, State.withMem_fetch hm, State.withMem_branch]

theorem execPop_usesMemory (d : Byte) (s : State) : ∃ t, UsesMemory (execPop d) s t := by
  cases hs : s.stack with
  | nil => exact ⟨s.advancePC, .leaves rfl fun m _ _ => execPop_of_nil d (s := s.withMem m) hs⟩
  | cons v rest =>
    exact ⟨_, usesMemory_of_writeDest (v := v) rest fun m _ => execPop_of_cons d (s := s.withMem m) hs⟩

theorem execWrtWith_usesMemory (decoder : List Byte → Option Text) (a f : Operand) (s : State) :
    UsesMemory (execWrtWith decoder a f) s
      (s.advancePC.withUnit (s.writeWith decoder (s.fetch a) (s.fetch f))) :=
  .leaves rfl fun m hm _ => by
    have hunit : (s.withMem m).writeWith decoder (s.fetch a) (s.fetch f)
        = (s.withMem m).withUnit (s.writeWith decoder (s.fetch a) (s.fetch f)) :=
      (s.withMem m).withUnit_writeWith decoder s (s.fetch a) (s.fetch f)
    rw [execWrtWith_eq_withUnit, State.withMem_fetch hm, State.withMem_fetch hm, hunit]
    rfl

/-- Every instruction uses the memory at `regs[4]` only. -/
theorem exec_usesMemory (i : Instr) (s : State) : ∃ t, UsesMemory (exec i) s t := by
  cases i with
  | and a b d => exact ⟨_, execAlu_usesMemory (fun x y => x &&& y) a b d s⟩
  | ror a b d => exact ⟨_, execAlu_usesMemory rotateRight a b d s⟩
  | add a b d => exact ⟨_, execAlu_usesMemory (fun x y => x + y) a b d s⟩
  | xor a b d => exact ⟨_, execAlu_usesMemory (fun x y => x ^^^ y) a b d s⟩
  | or a b d => exact ⟨_, execAlu_usesMemory (fun x y => x ||| y) a b d s⟩
  | rol a b d => exact ⟨_, execAlu_usesMemory rotateLeft a b d s⟩
  | sub a b d => exact ⟨_, execAlu_usesMemory (fun x y => x - y) a b d s⟩
  | not a d => exact ⟨_, writeDest_usesMemory (fun x => ~~~x) a d s⟩
  | jmp t => exact ⟨s.jump t, .leaves rfl fun _ _ _ => rfl⟩
  | jne a b t => exact ⟨_, branch_usesMemory testJne a b t s⟩
  | jge a b t => exact ⟨_, branch_usesMemory testJge a b t s⟩
  | jgt a b t => exact ⟨_, branch_usesMemory testJgt a b t s⟩
  | nop => exact ⟨s.advancePC, .leaves rfl fun _ _ _ => rfl⟩
  | jeq a b t => exact ⟨_, branch_usesMemory testJeq a b t s⟩
  | jlt a b t => exact ⟨_, branch_usesMemory testJlt a b t s⟩
  | jle a b t => exact ⟨_, branch_usesMemory testJle a b t s⟩
  | mov a d => exact ⟨_, writeDest_usesMemory id a d s⟩
  | swap x y =>
    exact ⟨(s.swapSlots (regOf x) (regOf y)).advancePC, .leaves (State.swapSlots_mem s _ _) fun m _ _ => by
      rw [exec, execSwap, State.withMem_swapSlots]; rfl⟩
  | push a =>
    exact ⟨(s.push (s.fetch a)).advancePC, .leaves rfl fun m hm _ => by
      rw [exec, execPush, State.withMem_fetch hm]; rfl⟩
  | pop d => exact execPop_usesMemory d s
  | wrt a f => exact ⟨_, execWrtWith_usesMemory utf8Decode a f s⟩
  | call a =>
    exact ⟨(s.push s.pc).jump (s.fetch a), .leaves rfl fun m hm _ => by
      rw [exec, execCall, State.withMem_fetch hm]; rfl⟩
  | jre =>
    exact ⟨s.jump (BitVec.ofInt 8 ((s.pc.toNat : Int) + sext8 s.regs.r0)), .leaves rfl fun _ _ _ => rfl⟩
  | hcf => exact ⟨s.halt, .leaves rfl fun _ _ _ => rfl⟩
  | class3 => exact ⟨s.advancePC, .leaves rfl fun _ _ _ => rfl⟩

theorem usesMemory_of_exec {i : Instr} {s t : State} (h : exec i s = .next t) : UsesMemory (exec i) s t := by
  obtain ⟨t', ht⟩ := exec_usesMemory i s
  obtain rfl : t' = t := Host.Outcome.next.inj (ht.runs.symm.trans h)
  exact ht

/-! ## A store and a load through the pair -/

/-- `regs[4]` after a write to `dest` (rules R13 and R18). -/
theorem State.writeDest_r4 (s : State) (d v : Byte) :
    (s.writeDest d v).regs.r4 = if regOf d = .r4 then v else s.regs.r4 := by
  have h := s.writeDest_get d v (j := .r4) (by decide)
  cases hd : regOf d <;> simpa [hd] using h

/-- An address, a store through r5 and a second address (rule R42): only the store writes memory, at the first address. -/
theorem State.memRead_after_store (s : State) {d4 d5 : Byte} (h4 : regOf d4 = .r4) (h5 : regOf d5 = .r5)
    (A V B : Byte) :
    (((s.writeDest d4 A).writeDest d5 V).writeDest d4 B).memRead B = if B = A then V else s.memRead B := by
  calc (((s.writeDest d4 A).writeDest d5 V).writeDest d4 B).memRead B
      = ((s.writeDest d4 A).writeDest d5 V).memRead B := by simp [State.writeDest_memRead, h4]
    _ = if B = A then V else (s.writeDest d4 A).memRead B := by
      simp [State.writeDest_memRead, State.writeDest_r4, h4, h5]
    _ = if B = A then V else s.memRead B := by simp [State.writeDest_memRead, h4]

/-! ## The program -/

@[simp] theorem State.writeDest_program (s : State) (d v : Byte) : (s.writeDest d v).program = s.program := by
  simp [State.writeDest]

/-- No instruction writes the program (rule R51). -/
theorem Leaves.program_eq {i : Instr} {s t : State} (h : Leaves i s t) : t.program = s.program := by
  cases h with
  | wroteDest v hd => exact State.writeDest_program _ _ _
  | swapped hi => rw [State.advancePC_program, State.swapSlots_frame]
  | wrote hi => rw [State.advancePC_program, State.write_frame]
  | halted hi => rfl
  | movedPc pc hi => rfl

theorem step_program {s t : State} (h : step s = .next t) : t.program = s.program := by
  rcases stepBy_cases exec s with ⟨-, hs⟩ | ⟨-, -, hs⟩ | ⟨w, -, -, hs⟩
  · cases h.symm.trans hs
    rfl
  · cases h.symm.trans hs
    rfl
  · exact (leaves_of_exec (hs.symm.trans h)).program_eq

/-- What every step keeps holds after a run of any length. -/
theorem stepN_keeps {P : State → Prop} (hstep : ∀ s t, P s → step s = .next t → P t) (k : Nat) :
    ∀ s t, P s → stepN k s = .next t → P t := by
  induction k with
  | zero =>
    intro s t hs h
    cases h
    exact hs
  | succ k ih =>
    intro s t hs h
    rw [stepN_succ] at h
    cases hu : step s with
    | next u =>
      rw [hu] at h
      exact ih u t (hstep s u hs hu) h
    | fault r => rw [hu] at h; cases h
    | refused r => rw [hu] at h; cases h

end Sys2Proof.Machine
end

section
/-! The statements of 20_memory.md, settled. -/

namespace Sys2Proof.Proofs

open Sys2Proof.Machine

/-- Settles O53: the cells are those MemRead and MemWrite address, and `UsesMemory` says what an instruction does. -/
theorem memoryIsReadAndWrittenAtR4Only : Obligations.MemoryIsReadAndWrittenAtR4Only := by
  refine ⟨fun s addr => ⟨observe_mem_length s, observe_mem_getElem? s addr⟩, fun s addr v => ⟨rfl, fun a => ?_⟩,
    fun i s t h => ?_⟩
  · rw [observe_mem_getElem?, observe_mem_getElem?, State.memRead_memWrite, apply_ite some]
  · cases usesMemory_of_exec h with
    | leaves hmem hrun => exact .inl ⟨hmem, hrun⟩
    | stores v hmem hrun => exact .inr ⟨v, hmem, hrun⟩

/-- Settles O14: every step keeps the program, and a fetch reads nothing else. -/
theorem programStoreNeverChanges : Obligations.ProgramStoreNeverChanges := by
  intro k s t h
  have hp : t.program = s.program :=
    stepN_keeps (P := fun u => u.program = s.program) (fun _ _ hu hs => (step_program hs).trans hu) k s t rfl h
  exact ⟨hp, fun n => by rw [hp]⟩

/-- Settles O6: each MOV is a write to `dest`, and the last loads the cell at the B the third left in `regs[4]`. -/
theorem storeThenLoadThroughThePair : Obligations.StoreThenLoadThroughThePair := by
  intro s A V B
  let stored := (s.writeDest 4 A).writeDest 5 V
  let readdressed := stored.writeDest 4 B
  have hstored : stored.regs.r4 = A := ((s.writeDest 4 A).writeDest_r4 5 V).trans (s.writeDest_r4 4 A)
  have haddr : readdressed.regs.r4 = B := stored.writeDest_r4 4 B
  refine ⟨s.writeDest 4 A, stored, readdressed, readdressed.writeDest 0 (readdressed.memRead readdressed.regs.r4),
    rfl, rfl, rfl, rfl, hstored, haddr, ?_⟩
  change readdressed.memRead readdressed.regs.r4 = _
  rw [haddr]
  exact s.memRead_after_store rfl rfl A V B

end Sys2Proof.Proofs
end

section
/-! SUPPORT. The decoder and the encoder by row of the opcode map (rules R61, R66 and R67): the instruction of a row is
`instrOfRow`, the decoder reads the row its word holds, and the encoder writes the row of its instruction. -/

namespace Sys2Proof.Machine

/-! ## The fields of an opcode byte as numbers -/

/-- The row number from the five bits the decoder matches (rule R61). -/
theorem row_eq_bits (op : Byte) :
    op.toNat % 32 = 16 * (op.getLsbD 4).toNat + 8 * (op.getLsbD 3).toNat + 4 * (op.getLsbD 2).toNat
      + 2 * (op.getLsbD 1).toNat + (op.getLsbD 0).toNat := by
  revert op; decide

theorem imm1_eq_decide (op : Byte) : imm1 op = decide (op.toNat / 64 % 2 = 1) := by
  revert op; decide

theorem imm2_eq_decide (op : Byte) : imm2 op = decide (op.toNat / 32 % 2 = 1) := by
  revert op; decide

theorem flagged_decide (p : Prop) [Decidable p] (b : Byte) :
    flagged (decide p) b = if p then .imm b else .reg b := by
  by_cases h : p <;> simp [h, flagged]

/-! ## The opcode map -/

/-- The instruction of a row of the opcode map (rules R66 and R67), given the two operands as their flags read them and the
three bytes as they stand. -/
def instrOfRow (row : Nat) (a b : Operand) (o1 o2 d : Byte) : Instr :=
  match row with
  | 0 => .and a b d
  | 1 => .ror a b d
  | 2 => .add a b d
  | 3 => .xor a b d
  | 4 => .or a b d
  | 5 => .rol a b d
  | 6 => .sub a b d
  | 7 => .not a d
  | 8 => .jmp d
  | 9 => .jne a b d
  | 10 => .jge a b d
  | 11 => .jgt a b d
  | 12 => .nop
  | 13 => .jeq a b d
  | 14 => .jlt a b d
  | 15 => .jle a b d
  | 16 => .mov a d
  | 17 => .swap o1 o2
  | 18 => .push a
  | 19 => .pop d
  | 20 => .wrt a b
  | 21 => .call a
  | 22 => .jre
  | 23 => .hcf
  | _ => .class3

/-- The rows from 24 on are class 3 (rule R67). -/
theorem instrOfRow_of_class3 {row : Nat} (h : 24 ≤ row) (a b : Operand) (o1 o2 d : Byte) :
    instrOfRow row a b o1 o2 d = .class3 := by
  obtain ⟨k, rfl⟩ := Nat.exists_eq_add_of_le' h
  rfl

/-- The decoder follows the opcode map: its five bits are the row's, in each of the 32 rows. -/
theorem decodeWord_eq_instrOfRow (w : InstrWord) :
    decodeWord w = instrOfRow (rowOf w) (flagged (imm1 w.opcode) w.operand1) (flagged (imm2 w.opcode) w.operand2)
      w.operand1 w.operand2 w.dest := by
  rw [rowOf, row_eq_bits, decodeWord]
  cases w.opcode.getLsbD 4 <;> cases w.opcode.getLsbD 3 <;> cases w.opcode.getLsbD 2 <;>
    cases w.opcode.getLsbD 1 <;> cases w.opcode.getLsbD 0 <;> rfl

/-! ## The encoder -/

@[simp] theorem rowOf_wordABD (cls : BitVec 2) (sub : BitVec 3) (a b : Operand) (d : Byte) :
    rowOf (wordABD cls sub a b d) = cls.toNat * 8 + sub.toNat :=
  opcodeByte_row a.flag b.flag cls sub

/-- What the decoder reads from a word the encoder lays out. -/
theorem decodeWord_wordABD (cls : BitVec 2) (sub : BitVec 3) (a b : Operand) (d : Byte) :
    decodeWord (wordABD cls sub a b d) = instrOfRow (cls.toNat * 8 + sub.toNat) a b a.byte b.byte d := by
  rw [decodeWord_eq_instrOfRow, rowOf_wordABD]
  simp only [wordABD, imm1_opcodeByte, imm2_opcodeByte, flagged_flag_byte]

/-- No instruction is lost in its word: each arm of the encoder is a `wordABD` of the instruction's own row. -/
theorem decodeWord_encodeWord (i : Instr) : decodeWord (encodeWord i) = i := by
  cases i <;> exact decodeWord_wordABD _ _ _ _ _

/-- Decoding at the head of bytes that begin with a word (rule R60). -/
theorem decode_bytes_append (w : InstrWord) (rest : List Byte) : decode (w.bytes ++ rest) = .ok (decodeWord w, rest) :=
  rfl

end Sys2Proof.Machine
end

section
/-! SUPPORT. What an instruction does depends only on what its operands fetch and on the low 3 bits of its register bytes
(rules R14, R64 and R71). -/

namespace Sys2Proof.Machine

/-! ## Operands and register bytes that read alike -/

/-- Register bytes that agree on their low 3 bits name the same register (rules R14 and R64). -/
theorem regOf_congr {d d' : Byte} (h : d.toNat % 8 = d'.toNat % 8) : regOf d = regOf d' :=
  (regOf_eq_iff d _).mpr (h.trans ((regOf_eq_iff d' _).mp rfl))

/-- Operand fields that read alike fetch alike (rules R14 and R63). -/
theorem fetch_congr {f f' : Bool} {b b' : Byte} (h : SameOperand f f' b b') (s : State) :
    s.fetch (flagged f b) = s.fetch (flagged f' b') := by
  obtain ⟨rfl, hb⟩ := h
  cases f with
  | true => exact congrArg (fun v => s.fetch (.imm v)) (by simpa using hb)
  | false => exact congrArg s.regRead (regOf_congr (by simpa using hb))

theorem writeDest_congr {d d' : Byte} (h : d.toNat % 8 = d'.toNat % 8) (s : State) (v : Byte) :
    s.writeDest d v = s.writeDest d' v := by
  rw [State.writeDest, State.writeDest, regOf_congr h]

theorem execAlu_congr (op : Byte → Byte → Byte) {a a' b b' : Operand} {d d' : Byte} {s : State}
    (ha : s.fetch a = s.fetch a') (hb : s.fetch b = s.fetch b') (hd : d.toNat % 8 = d'.toNat % 8) :
    execAlu op a b d s = execAlu op a' b' d' s := by
  rw [execAlu, execAlu, ha, hb, writeDest_congr hd]

/-- A conditional branch (rule R110), for any test of the two operands. -/
theorem branch_congr (test : Byte → Byte → Bool) {a a' b b' : Operand} {t t' : Byte} {s : State}
    (ha : s.fetch a = s.fetch a') (hb : s.fetch b = s.fetch b') (ht : t = t') :
    (Host.Outcome.next (s.branch (test (s.fetch a) (s.fetch b)) t) : Host.Outcome State Fault Refusal)
      = .next (s.branch (test (s.fetch a') (s.fetch b')) t') := by
  rw [ha, hb, ht]

theorem execPop_congr {d d' : Byte} (h : d.toNat % 8 = d'.toNat % 8) (s : State) : execPop d s = execPop d' s := by
  cases hs : s.stack with
  | nil => rw [execPop_of_nil d hs, execPop_of_nil d' hs]
  | cons v rest => rw [execPop_of_cons d hs, execPop_of_cons d' hs, writeDest_congr h]

/-! ## The rows -/

/-- The fields a row uses (rule R71) decide what its instruction does: the operands by what they fetch, `dest` by its low 3
bits or, where it is a target, as it stands, and SWAP's bytes by their low 3 bits. -/
theorem exec_instrOfRow_congr {row : Nat} {a a' b b' : Operand} {o1 o1' o2 o2' d d' : Byte} {s : State}
    (ha : row ∈ [0, 1, 2, 3, 4, 5, 6, 7, 9, 10, 11, 13, 14, 15, 16, 18, 20, 21] → s.fetch a = s.fetch a')
    (hb : row ∈ [0, 1, 2, 3, 4, 5, 6, 9, 10, 11, 13, 14, 15, 20] → s.fetch b = s.fetch b')
    (hd : row ∈ [0, 1, 2, 3, 4, 5, 6, 7, 16, 19] → d.toNat % 8 = d'.toNat % 8)
    (ht : row ∈ [8, 9, 10, 11, 13, 14, 15] → d = d')
    (hswap : row = 17 → o1.toNat % 8 = o1'.toNat % 8 ∧ o2.toNat % 8 = o2'.toNat % 8) :
    exec (instrOfRow row a b o1 o2 d) s = exec (instrOfRow row a' b' o1' o2' d') s := by
  match row with
  | 0 => exact execAlu_congr (fun x y => x &&& y) (ha (by decide)) (hb (by decide)) (hd (by decide))
  | 1 => exact execAlu_congr rotateRight (ha (by decide)) (hb (by decide)) (hd (by decide))
  | 2 => exact execAlu_congr (fun x y => x + y) (ha (by decide)) (hb (by decide)) (hd (by decide))
  | 3 => exact execAlu_congr (fun x y => x ^^^ y) (ha (by decide)) (hb (by decide)) (hd (by decide))
  | 4 => exact execAlu_congr (fun x y => x ||| y) (ha (by decide)) (hb (by decide)) (hd (by decide))
  | 5 => exact execAlu_congr rotateLeft (ha (by decide)) (hb (by decide)) (hd (by decide))
  | 6 => exact execAlu_congr (fun x y => x - y) (ha (by decide)) (hb (by decide)) (hd (by decide))
  | 7 =>
    change execNot a d s = execNot a' d' s
    rw [execNot, execNot, ha (by decide), writeDest_congr (hd (by decide))]
  | 8 => exact congrArg (execJmp · s) (ht (by decide))
  | 9 => exact branch_congr testJne (ha (by decide)) (hb (by decide)) (ht (by decide))
  | 10 => exact branch_congr testJge (ha (by decide)) (hb (by decide)) (ht (by decide))
  | 11 => exact branch_congr testJgt (ha (by decide)) (hb (by decide)) (ht (by decide))
  | 12 => rfl
  | 13 => exact branch_congr testJeq (ha (by decide)) (hb (by decide)) (ht (by decide))
  | 14 => exact branch_congr testJlt (ha (by decide)) (hb (by decide)) (ht (by decide))
  | 15 => exact branch_congr testJle (ha (by decide)) (hb (by decide)) (ht (by decide))
  | 16 =>
    change execMov a d s = execMov a' d' s
    rw [execMov, execMov, ha (by decide), writeDest_congr (hd (by decide))]
  | 17 =>
    obtain ⟨h1, h2⟩ := hswap rfl
    change execSwap o1 o2 s = execSwap o1' o2' s
    rw [execSwap, execSwap, regOf_congr h1, regOf_congr h2]
  | 18 =>
    change execPush a s = execPush a' s
    rw [execPush, execPush, ha (by decide)]
  | 19 => exact execPop_congr (hd (by decide)) s
  | 20 =>
    change execWrt a b s = execWrt a' b' s
    rw [execWrt, execWrt, execWrtWith, execWrtWith, ha (by decide), hb (by decide)]
  | 21 =>
    change execCall a s = execCall a' s
    rw [execCall, execCall, ha (by decide)]
  | 22 => rfl
  | 23 => rfl
  | _ + 24 => rfl

end Sys2Proof.Machine
end

section
/-! SUPPORT. The fetch of a word (rule R68): it succeeds exactly when the four bytes at `4 * pc` lie in the program, it gives
those bytes, and a word placed there is the word fetched. -/

namespace Sys2Proof.Machine

/-! ## Fetching -/

theorem fetchWord_of_drop {program : List Byte} {pc : Byte} {w : InstrWord} {rest : List Byte}
    (h : program.drop (4 * pc.toNat) = w.bytes ++ rest) : fetchWord program pc = some w := by
  rw [fetchWord, show Config.instrBytes = 4 from rfl, h]
  rfl

/-- Where four bytes are left, they are a word's. -/
theorem exists_bytes_append {bytes : List Byte} (h : 4 ≤ bytes.length) :
    ∃ (w : InstrWord) (rest : List Byte), bytes = w.bytes ++ rest := by
  match bytes, h with
  | op :: o1 :: o2 :: d :: rest, _ => exact ⟨⟨op, o1, o2, d⟩, rest, rfl⟩

/-- A program that reaches past the word at `pc` holds that word's four bytes at `4 * pc` (rule R68). -/
theorem exists_drop_eq_bytes_append {program : List Byte} {pc : Byte} (h : 4 * pc.toNat + 4 ≤ program.length) :
    ∃ (w : InstrWord) (rest : List Byte), program.drop (4 * pc.toNat) = w.bytes ++ rest :=
  exists_bytes_append (by rw [List.length_drop]; omega)

/-- A partial last word is never fetched (rule R68). -/
theorem fetchWord_of_short {program : List Byte} {pc : Byte} (h : program.length < 4 * pc.toNat + 4) :
    fetchWord program pc = none := by
  have hlen : (program.drop (Config.instrBytes * pc.toNat)).length < 4 := by
    rw [List.length_drop, show Config.instrBytes = 4 from rfl]
    omega
  rw [fetchWord]
  match program.drop (Config.instrBytes * pc.toNat), hlen with
  | [], _ | [_], _ | [_, _], _ | [_, _, _], _ => rfl
  | _ :: _ :: _ :: _ :: _, hlen =>
    simp only [List.length_cons] at hlen
    omega

/-- The bytes of a word by their places. -/
theorem getElem?_of_drop_eq_bytes_append {program rest : List Byte} {n : Nat} {w : InstrWord}
    (h : program.drop n = w.bytes ++ rest) :
    program[n]? = some w.opcode ∧ program[n + 1]? = some w.operand1 ∧ program[n + 2]? = some w.operand2
      ∧ program[n + 3]? = some w.dest := by
  have hget : ∀ k, program[n + k]? = (w.bytes ++ rest)[k]? := fun k => by rw [← h, List.getElem?_drop]
  exact ⟨hget 0, hget 1, hget 2, hget 3⟩

/-- Bytes that decode begin with the bytes of a word (rule R60). -/
theorem exists_of_decode_ok {bytes rest : List Byte} {i : Instr} (h : decode bytes = .ok (i, rest)) :
    ∃ w : InstrWord, bytes = w.bytes ++ rest ∧ decodeWord w = i := by
  match bytes with
  | [] | [_] | [_, _] | [_, _, _] => cases h
  | op :: o1 :: o2 :: d :: rest' =>
    cases h
    exact ⟨⟨op, o1, o2, d⟩, rfl, rfl⟩

/-- The word at any index of a program of 256 words or more is there to fetch (rule R68). -/
theorem fetchWord_ne_none_of_long {program : List Byte} (h : 1024 ≤ program.length) (pc : Byte) :
    fetchWord program pc ≠ none := by
  have hpc : pc.toNat < 256 := pc.isLt
  obtain ⟨w, rest, hw⟩ := exists_drop_eq_bytes_append (program := program) (pc := pc) (by omega)
  rw [fetchWord_of_drop hw]
  exact Option.some_ne_none w

/-! ## Placing a word -/

/-- What `placeWord` keeps before the word, made up with zeros, reaches exactly to `4 * pc`. -/
theorem length_take_append_replicate (program : List Byte) (n : Nat) :
    (program.take n ++ List.replicate (n - program.length) (0 : Byte)).length = n := by
  rw [List.length_append, List.length_take, List.length_replicate]
  omega

theorem drop_placeWord (program : List Byte) (pc : Byte) (w : InstrWord) :
    (placeWord program pc w).drop (4 * pc.toNat) = w.bytes ++ program.drop (4 * pc.toNat + 4) := by
  simp only [placeWord, show Config.instrBytes = 4 from rfl, List.append_assoc]
  rw [← List.append_assoc, List.drop_left' (length_take_append_replicate program _)]

theorem fetchWord_placeWord (program : List Byte) (pc : Byte) (w : InstrWord) :
    fetchWord (placeWord program pc w) pc = some w :=
  fetchWord_of_drop (drop_placeWord program pc w)

/-- Before the word the program's bytes stay. -/
theorem getElem?_placeWord_of_lt {program : List Byte} {pc : Byte} (w : InstrWord) {k : Nat}
    (hk : k < program.length) (h : k < 4 * pc.toNat) : (placeWord program pc w)[k]? = program[k]? := by
  have hhead : k < (program.take (4 * pc.toNat)).length := by
    rw [List.length_take]
    omega
  simp only [placeWord, show Config.instrBytes = 4 from rfl, List.append_assoc]
  rw [List.getElem?_append_left hhead, List.getElem?_take_of_lt h]

/-- After the word the program's bytes stay. -/
theorem getElem?_placeWord_of_ge (program : List Byte) {pc : Byte} (w : InstrWord) {k : Nat}
    (h : 4 * pc.toNat + 4 ≤ k) : (placeWord program pc w)[k]? = program[k]? := by
  obtain ⟨j, rfl⟩ := Nat.exists_eq_add_of_le h
  calc (placeWord program pc w)[4 * pc.toNat + 4 + j]?
      = ((placeWord program pc w).drop (4 * pc.toNat))[4 + j]? := by rw [List.getElem?_drop, Nat.add_assoc]
    _ = (w.bytes ++ program.drop (4 * pc.toNat + 4))[4 + j]? := by rw [drop_placeWord]
    _ = (program.drop (4 * pc.toNat + 4))[j]? := by
      rw [List.getElem?_append_right (Nat.le_add_right 4 j)]
      exact congrArg (fun n => (program.drop (4 * pc.toNat + 4))[n]?) (Nat.add_sub_cancel_left 4 j)
    _ = program[4 * pc.toNat + 4 + j]? := List.getElem?_drop

/-- A state made to run a word runs it (rule R69). -/
theorem step_withFetchWord (s : State) (nbits w : Nat) :
    step (s.withFetchWord nbits w) = exec (decodeWord (tableWord nbits w)) (s.withFetchWord nbits w) :=
  stepBy_of_fetch_some exec (s := s.withFetchWord nbits w) rfl (fetchWord_placeWord s.program s.pc _)

/-! ## No step and no instruction traps -/

theorem exec_safe (i : Instr) (s : State) : Safe (exec i s) := by
  obtain ⟨t, ht⟩ := exec_runsTo i s
  exact ⟨t, ht.runs⟩

theorem step_safe (s : State) : Safe (step s) := by
  rcases stepBy_cases exec s with ⟨-, h⟩ | ⟨-, -, h⟩ | ⟨w, -, -, h⟩
  · exact ⟨s, h⟩
  · exact ⟨s.halt, h⟩
  · obtain ⟨t, ht⟩ := exec_safe (decodeWord w) s
    exact ⟨t, h.trans ht⟩

end Sys2Proof.Machine
end

section
/-! SUPPORT. The words the assembler writes (rules R62, R66, R79 and R83): every one has opcode bit 7 clear and a row of the
opcode map, from the line that makes it through the patch step. -/

namespace Sys2Proof.Asm

open Sys2Proof.Machine

/-! ## Resolved operands and the rows of the mnemonics -/

/-- The operand a resolved value stands for (rules R74 and R79). -/
def Value.operand : Value → Operand
  | .register x => .reg x
  | .literal v => .imm v

theorem flagged_value (v : Value) : flagged v.flag v.byte = v.operand := by
  cases v <;> rfl

theorem rowOf_encodeResolved (cls : BitVec 2) (sub : BitVec 3) (a b d : Value) :
    rowOf (encodeResolved cls sub a b d) = cls.toNat * 8 + sub.toNat :=
  opcodeByte_row a.flag b.flag cls sub

/-- The decoder reads operand1 back as it was resolved (rules R63 and R79). -/
theorem operand1_encodeResolved (cls : BitVec 2) (sub : BitVec 3) (a b d : Value) :
    flagged (imm1 (encodeResolved cls sub a b d).opcode) (encodeResolved cls sub a b d).operand1 = a.operand := by
  rw [← flagged_value, encodeResolved, imm1_opcodeByte]

/-- The decoder reads operand2 back as it was resolved (rules R63 and R79). -/
theorem operand2_encodeResolved (cls : BitVec 2) (sub : BitVec 3) (a b d : Value) :
    flagged (imm2 (encodeResolved cls sub a b d).opcode) (encodeResolved cls sub a b d).operand2 = b.operand := by
  rw [← flagged_value, encodeResolved, imm2_opcodeByte]

/-- A mnemonic stands in the list at the number of its row (rule R66). -/
theorem mnemonics_getElem?_row :
    ∀ e ∈ mnemonics, mnemonics[e.2.1.toNat * 8 + e.2.2.toNat]? = some e := by
  decide

/-- The list ends before class 3 (rule R67). -/
theorem mnemonics_row_lt {e : Token × BitVec 2 × BitVec 3} (h : e ∈ mnemonics) :
    e.2.1.toNat * 8 + e.2.2.toNat < 24 := by
  obtain ⟨hlt, -⟩ := List.getElem?_eq_some_iff.mp (mnemonics_getElem?_row e h)
  exact hlt

theorem mem_mnemonics_of_lookup {m : Token} {cls : BitVec 2} {sub : BitVec 3}
    (h : mnemonics.lookup m = some (cls, sub)) : (m, cls, sub) ∈ mnemonics := by
  obtain ⟨before, after, hsplit, -⟩ := List.lookup_eq_some_iff.mp h
  rw [hsplit]
  exact List.mem_append_right before List.mem_cons_self

/-! ## The instruction line -/

section
variable {constants : List (Token × Value)} {p : Pass} (line : Nat) (raw : List Char) {m : Token} {ts : List Token}
  {cls : BitVec 2} {sub : BitVec 3} {oa ob od : LineOperand} {a b d : Value} {fa fb fd : Option Token}
  (hm : mnemonics.lookup m = some (cls, sub)) (hform : threeOperands m ts = some (oa, ob, od))
  (ha : oa.resolve constants p = .ok (a, fa)) (hb : ob.resolve constants p = .ok (b, fb))
  (hd : od.resolve constants p = .ok (d, fd))
include hm hform ha hb hd

/-- An instruction line whose mnemonic, form and operands are good appends one word and its forward references (rule R79). -/
theorem encodeInstruction_of_resolved :
    encodeInstruction constants p line raw m ts =
      .ok { p with
        words := p.words ++ [encodeResolved cls sub a b d]
        forwards := p.forwards ++ forwardOf p line raw .operand1 fa ++ forwardOf p line raw .operand2 fb
          ++ forwardOf p line raw .dest fd } := by
  simp only [encodeInstruction, hm, hform, ha, hb, hd]
  rfl

theorem encodeInstruction_words :
    (encodeInstruction constants p line raw m ts).map (·.words) = .ok (p.words ++ [encodeResolved cls sub a b d]) := by
  rw [encodeInstruction_of_resolved line raw hm hform ha hb hd]
  rfl

end

/-- What follows a computation that may fail runs on its answer. -/
theorem exists_ok_of_bind_ok {ε α β : Type} {x : Except ε α} {f : α → Except ε β} {b : β} (h : x >>= f = .ok b) :
    ∃ a, x = .ok a ∧ f a = .ok b := by
  cases x with
  | error e => cases h
  | ok a => exact ⟨a, rfl, h⟩

/-- There is no other way for an instruction line to be good. -/
theorem exists_resolved_of_encodeInstruction {constants : List (Token × Value)} {p q : Pass} {line : Nat} {raw : List Char}
    {m : Token} {ts : List Token} (h : encodeInstruction constants p line raw m ts = .ok q) :
    ∃ cls sub, ∃ a b d : Value, mnemonics.lookup m = some (cls, sub)
      ∧ q.words = p.words ++ [encodeResolved cls sub a b d] := by
  cases hm : mnemonics.lookup m with
  | none => simp [encodeInstruction, hm] at h
  | some e =>
    obtain ⟨cls, sub⟩ := e
    cases hform : threeOperands m ts with
    | none => simp [encodeInstruction, hm, hform] at h
    | some o =>
      obtain ⟨oa, ob, od⟩ := o
      simp only [encodeInstruction, hm, hform] at h
      obtain ⟨⟨a, fa⟩, -, h⟩ := exists_ok_of_bind_ok h
      obtain ⟨⟨b, fb⟩, -, h⟩ := exists_ok_of_bind_ok h
      obtain ⟨⟨d, fd⟩, -, h⟩ := exists_ok_of_bind_ok h
      cases h
      exact ⟨cls, sub, a, b, d, rfl, rfl⟩

/-! ## The words of a pass -/

/-- Opcode bit 7 is clear and the class is not 3 (rules R62 and R67). -/
def IsAssembled (w : InstrWord) : Prop := w.opcode.getLsbD 7 = false ∧ rowOf w < 24

theorem encodeResolved_isAssembled {m : Token} {cls : BitVec 2} {sub : BitVec 3}
    (h : mnemonics.lookup m = some (cls, sub)) (a b d : Value) : IsAssembled (encodeResolved cls sub a b d) := by
  refine ⟨opcodeByte_bit7 a.flag b.flag cls sub, ?_⟩
  rw [rowOf_encodeResolved]
  exact mnemonics_row_lt (mem_mnemonics_of_lookup h)

theorem encodeInstruction_keeps_isAssembled {constants : List (Token × Value)} {p q : Pass} {line : Nat} {raw : List Char}
    {m : Token} {ts : List Token} (h : encodeInstruction constants p line raw m ts = .ok q)
    (hp : ∀ w ∈ p.words, IsAssembled w) : ∀ w ∈ q.words, IsAssembled w := by
  obtain ⟨cls, sub, a, b, d, hm, hq⟩ := exists_resolved_of_encodeInstruction h
  rw [hq, List.forall_mem_append, List.forall_mem_singleton]
  exact ⟨hp, encodeResolved_isAssembled hm a b d⟩

/-- What a line of the encode pass can do to the words: nothing, or what an instruction line does from the same words. -/
theorem encodeLine_cases {constants : List (Token × Value)} {p q : Pass} {line : Nat} {raw : List Char}
    (h : encodeLine constants p line raw = .ok q) :
    q.words = p.words
      ∨ ∃ (p' : Pass) (m : Token) (ts : List Token), p'.words = p.words
          ∧ encodeInstruction constants p' line raw m ts = .ok q := by
  unfold encodeLine at h
  cases hl : lineTokens raw with
  | nil =>
    rw [hl] at h
    cases h
    exact .inl rfl
  | cons m ts =>
    simp only [hl] at h
    by_cases hdefine : m = "define".toList
    · rw [if_pos hdefine] at h
      cases h
      exact .inl rfl
    · rw [if_neg hdefine] at h
      split at h
      next name _ =>
        by_cases hname : name.head? = some '$'
        · rw [if_pos hname] at h
          cases h
          exact .inl rfl
        · rw [if_neg hname] at h
          cases h
      next => exact .inr ⟨{ p with lineMap := p.lineMap ++ [p.pc] }, upper m, _, rfl, h⟩

theorem encodeLine_keeps_isAssembled {constants : List (Token × Value)} {p q : Pass} {line : Nat} {raw : List Char}
    (h : encodeLine constants p line raw = .ok q) (hp : ∀ w ∈ p.words, IsAssembled w) : ∀ w ∈ q.words, IsAssembled w := by
  rcases encodeLine_cases h with hq | ⟨p', m, ts, hp', hq⟩
  · rwa [hq]
  · exact encodeInstruction_keeps_isAssembled hq (by rwa [hp'])

theorem onLine_eq_ok_iff {α : Type} (line : Nat) (raw : List Char) (r : Except ErrorKind α) (a : α) :
    onLine line raw r = .ok a ↔ r = .ok a := by
  cases r <;> simp [onLine]

theorem encodeLines_keeps_isAssembled {constants : List (Token × Value)} (lines : List (List Char)) :
    ∀ {line : Nat} {p q : Pass}, encodeLines constants line lines p = .ok q → (∀ w ∈ p.words, IsAssembled w) →
      ∀ w ∈ q.words, IsAssembled w := by
  induction lines with
  | nil =>
    intro line p q h hp
    cases h
    exact hp
  | cons raw rest ih =>
    intro line p q h hp
    rw [encodeLines] at h
    cases hline : onLine line raw (encodeLine constants p line raw) with
    | error e => simp [hline] at h
    | ok r =>
      rw [hline] at h
      exact ih h (encodeLine_keeps_isAssembled ((onLine_eq_ok_iff ..).mp hline) hp)

/-! ## The patch step -/

/-- A patch writes an operand byte or `dest`, never the opcode (rule R80). -/
@[simp] theorem patchWord_opcode (slot : WordSlot) (v : Byte) (w : InstrWord) : (patchWord slot v w).opcode = w.opcode := by
  cases slot <;> rfl

theorem patchWord_isAssembled {w : InstrWord} (h : IsAssembled w) (slot : WordSlot) (v : Byte) :
    IsAssembled (patchWord slot v w) := by
  rwa [IsAssembled, rowOf, patchWord_opcode]

/-- A property a function keeps, it keeps of the elements of a list it modifies at one place. -/
theorem forall_mem_modify {α : Type} {P : α → Prop} {f : α → α} (hf : ∀ x, P x → P (f x)) {l : List α} (n : Nat)
    (hl : ∀ x ∈ l, P x) : ∀ x ∈ l.modify n f, P x := by
  intro x hx
  obtain ⟨j, hj⟩ := List.mem_iff_getElem?.mp hx
  rw [List.getElem?_modify] at hj
  obtain ⟨y, hy, rfl⟩ := Option.map_eq_some_iff.mp hj
  have hmem : P y := hl y (List.mem_of_getElem? hy)
  split
  · exact hf y hmem
  · exact hmem

theorem patchAll_keeps_isAssembled {labels : List (Token × Nat)} (forwards : List ForwardRef) :
    ∀ {ws ws' : List InstrWord}, patchAll labels forwards ws = .ok ws' → (∀ w ∈ ws, IsAssembled w) →
      ∀ w ∈ ws', IsAssembled w := by
  induction forwards with
  | nil =>
    intro ws ws' h hws
    cases h
    exact hws
  | cons f fs ih =>
    intro ws ws' h hws
    rw [patchAll] at h
    cases hl : labels.lookup f.name with
    | none => simp [hl] at h
    | some pc =>
      rw [hl] at h
      exact ih h (forall_mem_modify (P := IsAssembled) (fun w hw => patchWord_isAssembled hw f.slot _) f.instruction hws)

/-! ## The program -/

theorem length_flatMap_bytes (words : List InstrWord) : (words.flatMap InstrWord.bytes).length = 4 * words.length := by
  induction words with
  | nil => rfl
  | cons w ws ih =>
    rw [List.flatMap_cons, List.length_append, ih, List.length_cons]
    change 4 + 4 * ws.length = _
    omega

/-- Assembly that succeeds went through an encode pass from nothing and a patch step, and emits the patched words
(rules R80 and R83). -/
theorem exists_words_of_assemble {source : String} {r : Output} (h : assemble source = .ok r) :
    ∃ (constants : List (Token × Value)) (p : Pass) (ws : List InstrWord),
      encodeLines constants 1 (splitLines source.toList) ⟨[], [], [], []⟩ = .ok p
        ∧ patchAll p.labels p.forwards p.words = .ok ws ∧ r.bytes = ws.flatMap InstrWord.bytes := by
  unfold assemble at h
  cases hc : constantsOf 1 (splitLines source.toList) [] with
  | error e => simp [hc] at h
  | ok constants =>
    cases hp : encodeLines constants 1 (splitLines source.toList) ⟨[], [], [], []⟩ with
    | error e => simp [hc, hp] at h
    | ok p =>
      cases hw : patchAll p.labels p.forwards p.words with
      | error e => simp [hc, hp, hw] at h
      | ok ws =>
        simp only [hc, hp, hw] at h
        cases h
        exact ⟨constants, p, ws, hp, hw, rfl⟩

/-! ## The short forms -/

section
variable (t u : Token)

/-- The forms without operands (rule R78). -/
theorem threeOperands_nil {m : Token} (h : m ∈ ["HCF".toList, "JRE".toList, "NOP".toList]) :
    threeOperands m [] = some (.suppliedZero, .suppliedZero, .suppliedZero) :=
  if_pos (by simpa using h)

/-- PUSH and CALL with one operand (rule R78). -/
theorem threeOperands_push_call {m : Token} (h : m ∈ ["PUSH".toList, "CALL".toList]) :
    threeOperands m [t] = some (.written t, .suppliedZero, .suppliedZero) :=
  if_pos (by simpa using h)

/-- JMP and POP with one operand (rule R78). -/
theorem threeOperands_jmp_pop {m : Token} (h : m ∈ ["JMP".toList, "POP".toList]) :
    threeOperands m [t] = some (.suppliedZero, .suppliedZero, .written t) := by
  have hne : ¬(m = "PUSH".toList ∨ m = "CALL".toList) := by
    revert m
    decide
  exact (if_neg hne).trans (if_pos (by simpa using h))

/-- MOV with two operands (rule R78). -/
theorem threeOperands_mov : threeOperands "MOV".toList [t, u] = some (.written t, .suppliedZero, .written u) := by
  rw [threeOperands, if_pos rfl]

/-- WRT with two operands (rule R78). -/
theorem threeOperands_wrt : threeOperands "WRT".toList [t, u] = some (.written t, .written u, .suppliedZero) := by
  rw [threeOperands, if_neg (by decide), if_pos rfl]

end

theorem resolve_written (constants : List (Token × Value)) (p : Pass) (t : Token) :
    (LineOperand.written t).resolve constants p = resolve constants p t := rfl

/-- A supplied `0` is a literal, whatever the constants and the labels are (rule R78). -/
theorem resolve_suppliedZero (constants : List (Token × Value)) (p : Pass) :
    LineOperand.suppliedZero.resolve constants p = .ok (.literal 0, none) := rfl

end Sys2Proof.Asm
end

section
/-! The statements of 30_encoding.md, settled. -/

namespace Sys2Proof.Proofs

open Sys2Proof.Machine

/-- Settles O2: the four bytes are a word's, and the word decodes to its instruction. -/
theorem decodeEncodeAgree : Obligations.DecodeEncodeAgree := by
  intro i rest
  rw [encode, decode_bytes_append, decodeWord_encodeWord]

/-- Settles O3: the statement's table is `instrOfRow`, its flags the numbers of bits 6 and 5. -/
theorem decodeFollowsOpcodeMap : Obligations.DecodeFollowsOpcodeMap := by
  intro w a b ha hb
  rw [← flagged_decide, ← imm1_eq_decide] at ha
  rw [← flagged_decide, ← imm2_eq_decide] at hb
  rw [decodeWord_eq_instrOfRow, ← ha, ← hb]
  rfl

/-- Settles O4: both words are of class 3, or of one row whose used fields act alike. -/
theorem unusedFieldsDoNotMatter : Obligations.UnusedFieldsDoNotMatter := by
  intro w w' h s
  rw [decodeWord_eq_instrOfRow w, decodeWord_eq_instrOfRow w']
  rcases h with ⟨hw, hw'⟩ | ⟨hrow, h1, h2, hdest, htarget, hswap⟩
  · rw [instrOfRow_of_class3 hw, instrOfRow_of_class3 hw']
  · rw [← hrow]
    exact exec_instrOfRow_congr (fun hr => fetch_congr (h1 hr) s) (fun hr => fetch_congr (h2 hr) s) hdest htarget hswap

/-- Settles O11: the four bytes are either not all there, or a word's. -/
theorem fetchReadsFourBytesOrHalts : Obligations.FetchReadsFourBytesOrHalts := by
  intro s hh
  refine ⟨fun hshort => stepBy_of_fetch_none exec hh (fetchWord_of_short hshort), fun hlong => ?_⟩
  obtain ⟨w, rest, hw⟩ := exists_drop_eq_bytes_append hlong
  exact ⟨w, stepBy_of_fetch_some exec hh (fetchWord_of_drop hw), getElem?_of_drop_eq_bytes_append hw⟩

/-- Settles O13. -/
theorem everyWordExecutesAndNothingTraps : Obligations.EveryWordExecutesAndNothingTraps :=
  ⟨step_safe, fun w => exec_safe (decodeWord w), exec_safe⟩

/-- Settles O45: of the two ways to halt, the failed fetch is closed to a long program. -/
theorem longProgramNeverRunsOff : Obligations.LongProgramNeverRunsOff := by
  intro s t hlong hh ht hhalted
  obtain ⟨-, hways, -⟩ := haltedIsSetInExactlyTwoWays
  exact ((hways s t ht hh).mp hhalted).resolve_left (fetchWord_ne_none_of_long hlong s.regs.r7)

/-- Settles O46. -/
theorem placedWordIsTheWordRun : Obligations.PlacedWordIsTheWordRun := by
  refine fun s nbits w => ⟨step_withFetchWord s nbits w, fun k hk hout => ?_⟩
  rcases hout with hbefore | hafter
  · exact getElem?_placeWord_of_lt (tableWord nbits w) hk hbefore
  · exact getElem?_placeWord_of_ge s.program (tableWord nbits w) hafter

/-- Settles O47: the encode pass appends words of the opcode map only, and the patch step leaves every opcode alone. -/
theorem assembledProgramsAreWholeWords : Obligations.AssembledProgramsAreWholeWords := by
  intro source r h
  obtain ⟨constants, p, words, hencode, hpatch, hbytes⟩ := Asm.exists_words_of_assemble h
  have hpass : ∀ w ∈ p.words, Asm.IsAssembled w := Asm.encodeLines_keeps_isAssembled _ hencode (List.forall_mem_nil _)
  refine ⟨words, hbytes, ?_, Asm.patchAll_keeps_isAssembled p.forwards hpatch hpass⟩
  rw [hbytes, Asm.length_flatMap_bytes]

/-- Settles O48: the row is the mnemonic's place in the list, and each operand carries its flag and byte. -/
theorem assembledLineReadsBack : Obligations.AssembledLineReadsBack := by
  intro e a b d he
  refine ⟨?_, Asm.operand1_encodeResolved e.2.1 e.2.2 a b d, Asm.operand2_encodeResolved e.2.1 e.2.2 a b d, ?_⟩
  · rw [Asm.rowOf_encodeResolved]
    exact Asm.mnemonics_getElem?_row e he
  · cases d <;> rfl

/-- Settles O54: the short form says which operands are supplied, and those are the literal 0. -/
theorem shorthandZerosAreLiterals : Obligations.ShorthandZerosAreLiterals := by
  intro constants p line raw n cls sub hn
  have hzero := Asm.resolve_suppliedZero constants p
  refine ⟨fun hmem => ?_, fun a x f ha => ?_⟩
  · rw [Asm.encodeInstruction_of_resolved line raw hn (Asm.threeOperands_nil hmem) hzero hzero hzero]
    simp only [Asm.forwardOf, List.append_nil]
    rfl
  · rw [← Asm.resolve_written] at ha
    refine ⟨fun hmem => ?_, fun hmem => ?_, fun b y g hb => ?_⟩
    · rw [Asm.encodeInstruction_words line raw hn (Asm.threeOperands_push_call a hmem) ha hzero hzero]
      rfl
    · rw [Asm.encodeInstruction_words line raw hn (Asm.threeOperands_jmp_pop a hmem) hzero hzero ha]
      rfl
    · rw [← Asm.resolve_written] at hb
      constructor <;> rintro rfl
      · rw [Asm.encodeInstruction_words line raw hn (Asm.threeOperands_mov a b) ha hzero hb]
        rfl
      · rw [Asm.encodeInstruction_words line raw hn (Asm.threeOperands_wrt a b) ha hb hzero]
        rfl

/-- Settles O1. -/
theorem decodeReadsTheSpecWords : Obligations.DecodeReadsTheSpecWords := by
  unfold Obligations.DecodeReadsTheSpecWords
  decide

/-- Settles O10: bytes that decode are those of a word the fetch finds. -/
theorem stepRunsTheDecodedInstruction : Obligations.StepRunsTheDecodedInstruction := by
  intro s i rest hh hdec
  obtain ⟨w, hw, rfl⟩ := exists_of_decode_ok hdec
  exact stepBy_of_fetch_some exec hh (fetchWord_of_drop hw)

/-- Settles O22: JMP's test is always true, NOP's always false, and class 3 only advances. -/
theorem jumpNopAndClass3SetOnlyPc : Obligations.JumpNopAndClass3SetOnlyPc :=
  fun _ _ => ⟨rfl, rfl, rfl⟩

end Sys2Proof.Proofs
end

section
/-! SUPPORT. The write to `dest` and the advance, field by field (rules R13, R18 and R90), and the rotates bit by bit (rules
R92, R96 and R99). The statements of 40_alu.md follow from it. -/

namespace Sys2Proof.Machine

/-! ## The write to `dest` and the advance -/

/-- Every slot that takes its write as it stands: not the shadow, not the reserved register, not `pc`. -/
theorem State.writeDest_get_plain (s : State) (d v : Byte) {j : Reg} (h5 : j ≠ .r5) (h6 : j ≠ .r6) (h7 : j ≠ .r7) :
    (s.writeDest d v).regs.get j = if d.toNat % 8 = j.index then v else s.regs.get j := by
  rw [State.writeDest_get s d v h7, if_neg fun h => h5 h.1]
  by_cases hd : regOf d = j
  · rw [if_pos ⟨hd.symm, hd ▸ h5, hd ▸ h6⟩, if_pos ((regOf_eq_iff d j).mp hd)]
  · rw [if_neg fun h => hd h.1.symm, if_neg fun h => hd ((regOf_eq_iff d j).mpr h)]

/-- The shadow after a write to `dest`: read back when `dest` names r4, else as it was (rules R13 and R16). -/
theorem State.writeDest_r5 (s : State) (d v : Byte) :
    (s.writeDest d v).regs.r5 = if d.toNat % 8 = 4 then s.memRead v else s.regs.r5 := by
  have h := s.writeDest_get d v (j := .r5) (by decide)
  have h4 : regOf d = .r4 ↔ d.toNat % 8 = 4 := regOf_eq_iff d .r4
  simp only [← h4]
  cases hd : regOf d <;> simpa [hd] using h

/-- The reserved register drops its write (rule R15). -/
@[simp] theorem State.writeDest_r6 (s : State) (d v : Byte) : (s.writeDest d v).regs.r6 = s.regs.r6 := by
  have h := s.writeDest_get d v (j := .r6) (by decide)
  rwa [if_neg (by simp), if_neg fun h' => h'.2.2 h'.1.symm] at h

/-- `pc` after a write to `dest`: the advance comes after the write (rule R18). -/
theorem State.writeDest_r7 (s : State) (d v : Byte) :
    (s.writeDest d v).regs.r7 = (if d.toNat % 8 = 7 then v else s.regs.r7) + 1 := by
  have h := s.regWrite_get (regOf d) v .r7
  have h7 : regOf d = .r7 ↔ d.toNat % 8 = 7 := regOf_eq_iff d .r7
  have hpc : (s.regWrite (regOf d) v).regs.r7 = if d.toNat % 8 = 7 then v else s.regs.r7 := by
    simp only [← h7]
    cases hd : regOf d <;> simpa [hd] using h
  rw [← hpc]
  rfl

/-- A write to `dest` and the advance leave what rules R13, R18 and R90 say, and nothing else. -/
theorem State.writeDest_wroteDest (s : State) (d v : Byte) : WroteDest s d v (s.writeDest d v) where
  r0 := s.writeDest_get_plain d v (j := .r0) (by decide) (by decide) (by decide)
  r1 := s.writeDest_get_plain d v (j := .r1) (by decide) (by decide) (by decide)
  r2 := s.writeDest_get_plain d v (j := .r2) (by decide) (by decide) (by decide)
  r3 := s.writeDest_get_plain d v (j := .r3) (by decide) (by decide) (by decide)
  r4 := s.writeDest_get_plain d v (j := .r4) (by decide) (by decide) (by decide)
  r5 := s.writeDest_r5 d v
  r6 := s.writeDest_r6 d v
  r7 := s.writeDest_r7 d v
  mem a := by
    have h5 : regOf d = .r5 ↔ d.toNat % 8 = 5 := regOf_eq_iff d .r5
    simp only [State.writeDest_memRead, h5]
  stack := s.writeDest_stack d v
  halted := s.regWrite_halted (regOf d) v
  acc := s.regWrite_acc (regOf d) v
  out := s.regWrite_out (regOf d) v
  trace := s.regWrite_trace (regOf d) v
  program := s.writeDest_program d v

/-! ## The rotates -/

/-- ROR is the library's rotation (rule R92). -/
theorem rotateRight_eq (a b : Byte) : rotateRight a b = a.rotateRight b.toNat := BitVec.rotateRight_def.symm

/-- ROL is the library's rotation (rule R96). -/
theorem rotateLeft_eq (a b : Byte) : rotateLeft a b = a.rotateLeft b.toNat := BitVec.rotateLeft_def.symm

/-- Bit `k` of ROR's result comes from `n` places higher, around the end (rule R92). -/
theorem getLsbD_rotateRight (a b : Byte) {k : Nat} (hk : k < 8) :
    (rotateRight a b).getLsbD k = a.getLsbD ((k + b.toNat % 8) % 8) := by
  rw [rotateRight_eq, BitVec.getLsbD_rotateRight, Bool.cond_decide]
  split
  · congr 1; omega
  · rw [decide_eq_true hk, Bool.true_and]
    congr 1; omega

/-- Bit `k` of ROL's result comes from `n` places lower, around the end (rule R96). -/
theorem getLsbD_rotateLeft (a b : Byte) {k : Nat} (hk : k < 8) :
    (rotateLeft a b).getLsbD k = a.getLsbD ((k + (8 - b.toNat % 8)) % 8) := by
  rw [rotateLeft_eq, BitVec.getLsbD_rotateLeft, Bool.cond_decide]
  split
  · congr 1; omega
  · rw [decide_eq_true hk, Bool.true_and]
    congr 1; omega

/-- Counts whose sum is a multiple of 8 rotate alike in opposite directions (rule R99). -/
theorem rotateLeft_eq_rotateRight (a : Byte) {n m : Byte} (h : (n.toNat + m.toNat) % 8 = 0) :
    rotateLeft a n = rotateRight a m := by
  refine BitVec.eq_of_getLsbD_eq fun k hk => ?_
  rw [getLsbD_rotateLeft a n hk, getLsbD_rotateRight a m hk]
  congr 1; omega

/-- Only the count mod 8 matters to ROR (rule R92). -/
theorem rotateRight_congr (a : Byte) {n m : Byte} (h : n.toNat % 8 = m.toNat % 8) :
    rotateRight a n = rotateRight a m := by
  simp only [rotateRight, h]

/-- Only the count mod 8 matters to ROL (rule R96). -/
theorem rotateLeft_congr (a : Byte) {n m : Byte} (h : n.toNat % 8 = m.toNat % 8) :
    rotateLeft a n = rotateLeft a m := by
  simp only [rotateLeft, h]

/-- ALU instructions with equal results are equal (rule R90). -/
theorem execAlu_eq_of_result {op op' : Byte → Byte → Byte} {a b b' : Operand} {d : Byte} {s : State}
    (h : op (s.fetch a) (s.fetch b) = op' (s.fetch a) (s.fetch b')) :
    execAlu op a b d s = execAlu op' a b' d s := by
  rw [execAlu, execAlu, h]

end Sys2Proof.Machine
end

section
/-! The statements of 40_alu.md, settled. -/

namespace Sys2Proof.Proofs

open Sys2Proof.Machine

/-- Settles O18: each result bit is the connective of the operand bits, and NOT is the complement to 255. -/
theorem aluLogicResults : Obligations.AluLogicResults := by
  intro a b d s
  refine ⟨⟨_, _, rfl, s.writeDest_wroteDest d _, fun k _ => ?_⟩, ⟨_, _, rfl, s.writeDest_wroteDest d _, fun k _ => ?_⟩,
    ⟨_, _, rfl, s.writeDest_wroteDest d _, fun k _ => ?_⟩, ⟨_, _, rfl, s.writeDest_wroteDest d _, ?_⟩⟩
  · exact BitVec.getLsbD_and
  · exact BitVec.getLsbD_xor
  · exact BitVec.getLsbD_or
  · exact BitVec.toNat_not

/-- Settles O19: the byte arithmetic is the arithmetic of numbers mod 256. -/
theorem aluAddSubResults : Obligations.AluAddSubResults := by
  intro a b d s
  refine ⟨⟨_, _, rfl, s.writeDest_wroteDest d _, ?_⟩, ⟨_, _, rfl, s.writeDest_wroteDest d _, ?_⟩⟩
  · exact BitVec.toNat_add _ _
  · have ha := (s.fetch a).isLt
    have hb := (s.fetch b).isLt
    rw [BitVec.toNat_sub]
    omega

/-- Settles O20: every bit placed, around the end. -/
theorem aluRotateResults : Obligations.AluRotateResults := by
  intro a b d s
  refine ⟨⟨_, _, rfl, s.writeDest_wroteDest d _, fun k hk => ?_⟩, ⟨_, _, rfl, s.writeDest_wroteDest d _, fun k hk => ?_⟩⟩
  · exact getLsbD_rotateRight _ _ hk
  · rw [getLsbD_rotateLeft _ _ (Nat.mod_lt _ (by decide))]
    congr 1; omega

/-- Settles O21: rotates with equal results are equal instructions. -/
theorem rotateCountsReduceMod8 : Obligations.RotateCountsReduceMod8 := by
  intro a n d s
  have hplus : (n + 8).toNat % 8 = n.toNat % 8 := by bv_omega
  have hopp : (n.toNat + (BitVec.ofNat 8 ((8 - n.toNat % 8) % 8)).toNat) % 8 = 0 := by
    rw [BitVec.toNat_ofNat]
    omega
  exact ⟨execAlu_eq_of_result (rotateLeft_eq_rotateRight (s.fetch a) hopp),
    execAlu_eq_of_result (rotateRight_congr (s.fetch a) hplus),
    execAlu_eq_of_result (rotateLeft_congr (s.fetch a) hplus)⟩

end Sys2Proof.Proofs
end

section
/-! SUPPORT. The COND class as one branch on the test of its subtype (rule R110), and what setting subtype bit 2 does to the
word and to the test (rule R119). The statements of 41_cond.md follow from it. -/

namespace Sys2Proof.Machine

/-! ## The branch -/

/-- A COND instruction's end (rule R110) sets `pc` and nothing else. -/
theorem State.branch_eq_withPc (s : State) (taken : Bool) (t : Byte) :
    s.branch taken t = s.withPc (if taken = true then t else s.regs.r7 + 1) := by
  cases taken <;> rfl

/-- What an instruction that branches on a decided comparison leaves (rule R110). -/
theorem next_branch_decide (s : State) (p : Prop) [Decidable p] (t : Byte) :
    (Host.Outcome.next (s.branch (decide p) t) : Host.Outcome State Fault Refusal)
      = .next (s.withPc (if p then t else s.regs.r7 + 1)) := by
  simp only [State.branch_eq_withPc, decide_eq_true_eq]

/-! ## The tests by subtype -/

/-- `Test[sub](a, b)` of rule R110, for the eight subtypes (rules R111 to R118). -/
def condTest (sub : Nat) (x y : Byte) : Bool :=
  match sub with
  | 0 => testJmp
  | 1 => testJne x y
  | 2 => testJge x y
  | 3 => testJgt x y
  | 4 => testNop
  | 5 => testJeq x y
  | 6 => testJlt x y
  | _ => testJle x y

/-- The rows 8 to 15 of the opcode map branch on the test of their subtype (rule R110). NOP, which has no target of its own,
is no exception: its test is false. -/
theorem exec_instrOfRow_cond {sub : Nat} (h : sub < 8) (a b : Operand) (o1 o2 d : Byte) (s : State) :
    exec (instrOfRow (8 + sub) a b o1 o2 d) s = .next (s.branch (condTest sub (s.fetch a) (s.fetch b)) d) := by
  match sub, h with
  | 0, _ | 1, _ | 2, _ | 3, _ | 4, _ | 5, _ | 6, _ | 7, _ => rfl

/-- Four subtypes on stands the negated test (rule R119). -/
theorem condTest_add_four {sub : Nat} (h : sub < 4) (x y : Byte) : condTest (sub + 4) x y = !condTest sub x y := by
  match sub, h with
  | 0, _ => rfl
  | 1, _ => simp [condTest, testJne, testJeq]
  | 2, _ => simp [condTest, testJge, testJlt, ← decide_not]
  | 3, _ => simp [condTest, testJgt, testJle, ← decide_not]

/-! ## Setting subtype bit 2 -/

/-- Adding 4 to an opcode whose bit 2 is clear carries nowhere. -/
theorem toNat_opcode_add_four {op : Byte} (h : op.toNat % 8 < 4) : (op + 4).toNat = op.toNat + 4 := by
  bv_omega

/-- A word with subtype bit 2 set decodes four rows on, with the operands and `dest` it had (rules R61 and R66). -/
theorem decodeWord_add_four {w : InstrWord} (h : rowOf w % 8 < 4) :
    decodeWord { w with opcode := w.opcode + 4 } =
      instrOfRow (rowOf w + 4) (flagged (imm1 w.opcode) w.operand1) (flagged (imm2 w.opcode) w.operand2)
        w.operand1 w.operand2 w.dest := by
  unfold rowOf at h ⊢
  have hop : (w.opcode + 4).toNat = w.opcode.toNat + 4 := toNat_opcode_add_four (by omega)
  have hrow : (w.opcode.toNat + 4) % 32 = w.opcode.toNat % 32 + 4 := by omega
  have h64 : (w.opcode.toNat + 4) / 64 = w.opcode.toNat / 64 := by omega
  have h32 : (w.opcode.toNat + 4) / 32 = w.opcode.toNat / 32 := by omega
  simp only [decodeWord_eq_instrOfRow, rowOf, imm1_eq_decide, imm2_eq_decide, hop, hrow, h64, h32]

/-- A COND word with subtype bit 2 clear and the same word with it set branch on a test and on its negation (rule R119). -/
theorem exec_decodeWord_negated {w : InstrWord} (hlo : 8 ≤ rowOf w) (hhi : rowOf w < 12) (s : State) :
    ∃ taken : Bool, exec (decodeWord w) s = .next (s.branch taken w.dest)
      ∧ exec (decodeWord { w with opcode := w.opcode + 4 }) s = .next (s.branch (!taken) w.dest) := by
  obtain ⟨sub, hsub⟩ := Nat.exists_eq_add_of_le hlo
  have h4 : sub < 4 := by omega
  refine ⟨condTest sub (s.fetch (flagged (imm1 w.opcode) w.operand1))
    (s.fetch (flagged (imm2 w.opcode) w.operand2)), ?_, ?_⟩
  · rw [decodeWord_eq_instrOfRow, hsub]
    exact exec_instrOfRow_cond (by omega) _ _ _ _ _ s
  · rw [decodeWord_add_four (by omega), hsub, Nat.add_assoc, ← condTest_add_four h4]
    exact exec_instrOfRow_cond (by omega) _ _ _ _ _ s

end Sys2Proof.Machine
end

section
/-! The statements of 41_cond.md, settled. -/

namespace Sys2Proof.Proofs

open Sys2Proof.Machine

/-- Settles O25: of a test and its negation exactly one holds. -/
theorem subtypeBit2NegatesTheTest : Obligations.SubtypeBit2NegatesTheTest := by
  intro w s hlo hhi
  obtain ⟨taken, hclear, hset⟩ := exec_decodeWord_negated hlo hhi s
  rw [hclear, hset]
  cases taken with
  | true => exact .inl ⟨rfl, rfl⟩
  | false => exact .inr ⟨rfl, rfl⟩

/-- Settles O23: each of the two branches on its decided comparison. -/
theorem equalityBranches : Obligations.EqualityBranches :=
  fun _ _ t s => ⟨next_branch_decide s _ t, next_branch_decide s _ t⟩

/-- Settles O24: each of the four branches on its decided comparison of numbers. -/
theorem orderedBranchesAreUnsigned : Obligations.OrderedBranchesAreUnsigned :=
  fun _ _ t s => ⟨next_branch_decide s _ t, next_branch_decide s _ t, next_branch_decide s _ t, next_branch_decide s _ t⟩

end Sys2Proof.Proofs
end

section
/-! SUPPORT. The exchange of SWAP and its advance slot by slot (rule R132), the write of POP r7 (rules R134 and R138), and
the signed offset of JRE (rules R6 and R136). The statements of 42_io.md follow from it. -/

namespace Sys2Proof.Machine

/-! ## Slots by number -/

/-- Every number below 8 is a register's (rule R11). -/
theorem exists_index_eq {k : Nat} (hk : k < 8) : ∃ r : Reg, r.index = k := by
  interval_cases k
  exacts [⟨.r0, rfl⟩, ⟨.r1, rfl⟩, ⟨.r2, rfl⟩, ⟨.r3, rfl⟩, ⟨.r4, rfl⟩, ⟨.r5, rfl⟩, ⟨.r6, rfl⟩, ⟨.r7, rfl⟩]

/-- The host reads the slot a byte names at the place of the byte's low 3 bits (rules R14 and R27). -/
theorem observe_regs_getD_regOf (s : State) (b : Byte) :
    s.observe.regs.getD (b.toNat % 8) 0 = s.regs.get (regOf b) :=
  (s.regs.get_regOf b).symm

/-- Every slot after an advance (rule R18). -/
theorem State.advancePC_get (s : State) (r : Reg) :
    s.advancePC.regs.get r = s.regs.get r + if r.index = 7 then 1 else 0 := by
  cases r
  case r7 => rfl
  all_goals exact (BitVec.add_zero _).symm

/-! ## SWAP -/

/-- A SWAP with the reserved register exchanges nothing (rule R132). -/
theorem State.swapSlots_of_r6 (s : State) {i j : Reg} (h : i = .r6 ∨ j = .r6) : s.swapSlots i j = s := if_pos h

/-- Every slot after an exchange of two slots that are not reserved and the advance (rule R132). -/
theorem State.swapSlots_advancePC_get_of_not_r6 (s : State) {i j : Reg} (h : ¬(i = .r6 ∨ j = .r6)) (k : Reg) :
    (s.swapSlots i j).advancePC.regs.get k =
      (if k = j then s.regs.get i else if k = i then s.regs.get j else s.regs.get k)
        + if k.index = 7 then 1 else 0 := by
  rw [State.advancePC_get, State.swapSlots_get, if_neg h]

/-- The exchange and the advance change slots only (rule R132). -/
theorem State.swapSlots_advancePC_frame (s : State) (i j : Reg) :
    (s.swapSlots i j).advancePC = { s with regs := (s.swapSlots i j).advancePC.regs } := by
  rw [State.swapSlots_frame]
  rfl

/-! ## POP -/

/-- A write to `pc` takes the advance after it (rules R17 and R18). -/
theorem State.writeDest_of_r7 (s : State) {d : Byte} (v : Byte) (hd : regOf d = .r7) :
    s.writeDest d v = s.withPc (v + 1) := by
  rw [State.writeDest, hd]
  rfl

/-! ## JRE -/

/-- `sext_8` is the library's signed reading (rule R6). -/
theorem sext8_eq_toInt (v : Byte) : sext8 v = v.toInt := by
  rw [sext8, BitVec.toInt_eq_toNat_cond]
  split_ifs <;> omega

/-- The byte JRE puts in `pc`, as a number: the sum with the offset mod 256 (rule R136). -/
theorem toNat_ofInt_sext8 (pc v : Byte) :
    ((BitVec.ofInt 8 ((pc.toNat : Int) + sext8 v)).toNat : Int) = ((pc.toNat : Int) + sext8 v) % 256 := by
  rw [BitVec.toNat_ofInt]
  exact Int.toNat_of_nonneg (Int.emod_nonneg _ (by decide))

/-- The byte JRE puts in `pc`, as a byte: mod 256 the sign of the offset does not show (rule R136). -/
theorem ofInt_add_sext8 (pc v : Byte) : BitVec.ofInt 8 ((pc.toNat : Int) + sext8 v) = pc + v := by
  rw [sext8_eq_toInt, BitVec.ofInt_add, BitVec.ofInt_toInt, BitVec.ofInt_natCast, BitVec.ofNat_toNat,
    BitVec.setWidth_eq]

end Sys2Proof.Machine
end

section
/-! The statements of 42_io.md, settled. -/

namespace Sys2Proof.Proofs

open Sys2Proof.Machine

/-- Settles O26: MOV is a write to `dest` and the advance. -/
theorem movWritesItsOperand : Obligations.MovWritesItsOperand :=
  fun a d s => ⟨_, rfl, s.writeDest_wroteDest d (s.fetch a)⟩

/-- Settles O27: the raw exchange of slots by register, read by number. -/
theorem swapExchangesRawSlots : Obligations.SwapExchangesRawSlots := by
  intro x y s
  refine ⟨_, rfl, s.swapSlots_advancePC_frame (regOf x) (regOf y), ?_⟩
  have h6 : x.toNat % 8 = 6 ∨ y.toNat % 8 = 6 ↔ regOf x = .r6 ∨ regOf y = .r6 :=
    or_congr (regOf_eq_iff x .r6).symm (regOf_eq_iff y .r6).symm
  split
  next h =>
    rw [State.swapSlots_of_r6 s (h6.mp h)]
    rfl
  next h =>
    intro k hk
    obtain ⟨r, rfl⟩ := exists_index_eq hk
    have named (b : Byte) : r.index = b.toNat % 8 ↔ r = regOf b := by
      rw [eq_comm, ← regOf_eq_iff, eq_comm]
    simp only [named, observe_regs_getD_index, observe_regs_getD_regOf]
    exact s.swapSlots_advancePC_get_of_not_r6 (mt h6.mpr h) r

/-- Settles O29: an empty stack leaves the advance alone, a top is written to `dest`. -/
theorem popTakesTheTopOrNothing : Obligations.PopTakesTheTopOrNothing := by
  intro d s
  cases hs : s.stack with
  | nil => exact execPop_of_nil d hs
  | cons top rest => exact ⟨_, execPop_of_cons d hs, State.writeDest_wroteDest _ d top⟩

/-- Settles O31: the new `pc` as a number and as a byte. -/
theorem jreAddsTheSignedOffset : Obligations.JreAddsTheSignedOffset :=
  fun s => ⟨_, rfl, rfl, toNat_ofInt_sext8 s.regs.r7 s.regs.r0, ofInt_add_sext8 s.regs.r7 s.regs.r0⟩

/-- Settles O33: the top CALL left is its own word index, and the advance after the write to `pc` makes it the next. -/
theorem popR7ReturnsAfterTheCall : Obligations.PopR7ReturnsAfterTheCall := by
  intro a s t u d hcall hstack hd
  have htop : u.stack = s.regs.r7 :: s.stack := hstack.trans (leaves_of_exec hcall).stack_eq
  exact ⟨_, execPop_of_cons d htop, State.writeDest_of_r7 _ _ ((regOf_eq_iff d .r7).mpr hd)⟩

/-- Settles O28. -/
theorem pushPushesItsOperand : Obligations.PushPushesItsOperand := fun _ _ => rfl

/-- Settles O30. -/
theorem callPushesItsOwnIndex : Obligations.CallPushesItsOwnIndex := fun _ _ => rfl

/-- Settles O32. -/
theorem hcfOnlyHalts : Obligations.HcfOnlyHalts := fun _ => rfl

end Sys2Proof.Proofs
end

section
/-! SUPPORT. The decoder of rule R152 against the table of well-formed sequences: its row functions are the table's rows, and
what it decodes is the table's concatenations. -/

namespace Sys2Proof.Machine

/-! ## The ranges of the table -/

theorem inRange_iff {lo hi : Nat} {b : Byte} : inRange lo hi b = true ↔ lo ≤ b.toNat ∧ b.toNat ≤ hi := by
  simp [inRange]

theorem isCont_iff {b : Byte} : isCont b = true ↔ IsContinuation b := inRange_iff

theorem SecondByteFits.isContinuation {b1 b2 : Byte} (h : SecondByteFits b1 b2) : IsContinuation b2 := by
  unfold SecondByteFits at h
  unfold IsContinuation at *
  split_ifs at h <;> omega

/-- The two-byte row admits every continuation byte. -/
theorem secondByteFits_iff_of_le {b1 b2 : Byte} (h : b1.toNat ≤ 0xDF) : SecondByteFits b1 b2 ↔ IsContinuation b2 := by
  unfold SecondByteFits
  repeat rw [if_neg (by omega)]

theorem second3_iff {b1 b2 : Byte} :
    second3 b1 b2 = true ↔ (0xE0 ≤ b1.toNat ∧ b1.toNat ≤ 0xEF) ∧ SecondByteFits b1 b2 := by
  simp only [second3, Bool.or_eq_true, Bool.and_eq_true, inRange_iff, isCont_iff]
  unfold SecondByteFits IsContinuation
  split_ifs <;> omega

theorem second4_iff {b1 b2 : Byte} :
    second4 b1 b2 = true ↔ (0xF0 ≤ b1.toNat ∧ b1.toNat ≤ 0xF4) ∧ SecondByteFits b1 b2 := by
  simp only [second4, Bool.or_eq_true, Bool.and_eq_true, inRange_iff, isCont_iff]
  unfold SecondByteFits IsContinuation
  split_ifs <;> omega

/-! ## The row functions -/

theorem scalar1_eq_some_iff {b1 : Byte} {c : Scalar} : scalar1 b1 = some c ↔ b1.toNat ≤ 0x7F ∧ c = b1.toNat := by
  simp [scalar1, inRange_iff, eq_comm (a := c)]

theorem scalar2_eq_some_iff {b1 b2 : Byte} {c : Scalar} :
    scalar2 b1 b2 = some c ↔ (0xC2 ≤ b1.toNat ∧ b1.toNat ≤ 0xDF) ∧ IsContinuation b2
      ∧ c = b1.toNat % 32 * 64 + contBits b2 := by
  simp [scalar2, inRange_iff, isCont_iff, and_assoc, eq_comm (a := c)]

theorem scalar3_eq_some_iff {b1 b2 b3 : Byte} {c : Scalar} :
    scalar3 b1 b2 b3 = some c ↔ (0xE0 ≤ b1.toNat ∧ b1.toNat ≤ 0xEF) ∧ SecondByteFits b1 b2 ∧ IsContinuation b3
      ∧ c = b1.toNat % 16 * 4096 + contBits b2 * 64 + contBits b3 := by
  simp [scalar3, second3_iff, isCont_iff, and_assoc, eq_comm (a := c)]

theorem scalar4_eq_some_iff {b1 b2 b3 b4 : Byte} {c : Scalar} :
    scalar4 b1 b2 b3 b4 = some c ↔ (0xF0 ≤ b1.toNat ∧ b1.toNat ≤ 0xF4) ∧ SecondByteFits b1 b2 ∧ IsContinuation b3
      ∧ IsContinuation b4
      ∧ c = b1.toNat % 8 * 262144 + contBits b2 * 4096 + contBits b3 * 64 + contBits b4 := by
  simp [scalar4, second4_iff, isCont_iff, and_assoc, eq_comm (a := c)]

/-! ## The rows are tried by length, and a longer row's first byte is refused by the shorter ones -/

theorem scalar1_eq_none {b1 : Byte} (h : 0x80 ≤ b1.toNat) : scalar1 b1 = none := by
  refine Option.eq_none_iff_forall_ne_some.mpr fun c hc => ?_
  obtain ⟨h1, -⟩ := scalar1_eq_some_iff.mp hc
  omega

theorem scalar2_eq_none {b1 : Byte} (h : 0xE0 ≤ b1.toNat) (b2 : Byte) : scalar2 b1 b2 = none := by
  refine Option.eq_none_iff_forall_ne_some.mpr fun c hc => ?_
  obtain ⟨h1, -⟩ := scalar2_eq_some_iff.mp hc
  omega

theorem scalar3_eq_none {b1 : Byte} (h : 0xF0 ≤ b1.toNat) (b2 b3 : Byte) : scalar3 b1 b2 b3 = none := by
  refine Option.eq_none_iff_forall_ne_some.mpr fun c hc => ?_
  obtain ⟨h1, -⟩ := scalar3_eq_some_iff.mp hc
  omega

/-! ## The table's rows are the row functions -/

/-- The table's masks keep the low bits of a byte. -/
theorem toNat_and_lowBits (b : Byte) :
    (b &&& 0x07).toNat = b.toNat % 8 ∧ (b &&& 0x0F).toNat = b.toNat % 16 ∧ (b &&& 0x1F).toNat = b.toNat % 32
      ∧ (b &&& 0x3F).toNat = contBits b :=
  ⟨Nat.and_two_pow_sub_one_eq_mod b.toNat 3, Nat.and_two_pow_sub_one_eq_mod b.toNat 4,
    Nat.and_two_pow_sub_one_eq_mod b.toNat 5, Nat.and_two_pow_sub_one_eq_mod b.toNat 6⟩

theorem utf8Row_one_iff {b1 : Byte} {c : Scalar} : Utf8Row [b1] c ↔ scalar1 b1 = some c := by
  rw [scalar1_eq_some_iff]
  constructor
  · intro row
    cases row with
    | one _ h => exact ⟨h, rfl⟩
  · rintro ⟨h, rfl⟩
    exact .one b1 h

theorem utf8Row_two_iff {b1 b2 : Byte} {c : Scalar} : Utf8Row [b1, b2] c ↔ scalar2 b1 b2 = some c := by
  obtain ⟨-, -, m1, -⟩ := toNat_and_lowBits b1
  obtain ⟨-, -, -, m2⟩ := toNat_and_lowBits b2
  rw [scalar2_eq_some_iff, ← m1, ← m2]
  constructor
  · intro row
    cases row with
    | two _ _ h1 h2 => exact ⟨h1, h2, rfl⟩
  · rintro ⟨h1, h2, rfl⟩
    exact .two b1 b2 h1 h2

theorem utf8Row_three_iff {b1 b2 b3 : Byte} {c : Scalar} :
    Utf8Row [b1, b2, b3] c ↔ scalar3 b1 b2 b3 = some c := by
  obtain ⟨-, m1, -⟩ := toNat_and_lowBits b1
  obtain ⟨-, -, -, m2⟩ := toNat_and_lowBits b2
  obtain ⟨-, -, -, m3⟩ := toNat_and_lowBits b3
  rw [scalar3_eq_some_iff, ← m1, ← m2, ← m3]
  constructor
  · intro row
    cases row with
    | three _ _ _ h1 h3 =>
      refine ⟨by omega, ?_, h3, rfl⟩
      unfold SecondByteFits IsContinuation
      split_ifs <;> omega
  · rintro ⟨h1, h2, h3, rfl⟩
    refine .three b1 b2 b3 ?_ h3
    unfold SecondByteFits IsContinuation at h2
    split_ifs at h2 <;> omega

theorem utf8Row_four_iff {b1 b2 b3 b4 : Byte} {c : Scalar} :
    Utf8Row [b1, b2, b3, b4] c ↔ scalar4 b1 b2 b3 b4 = some c := by
  obtain ⟨m1, -⟩ := toNat_and_lowBits b1
  obtain ⟨-, -, -, m2⟩ := toNat_and_lowBits b2
  obtain ⟨-, -, -, m3⟩ := toNat_and_lowBits b3
  obtain ⟨-, -, -, m4⟩ := toNat_and_lowBits b4
  rw [scalar4_eq_some_iff, ← m1, ← m2, ← m3, ← m4]
  constructor
  · intro row
    cases row with
    | four _ _ _ _ h1 h3 h4 =>
      refine ⟨by omega, ?_, h3, h4, rfl⟩
      unfold SecondByteFits IsContinuation
      split_ifs <;> omega
  · rintro ⟨h1, h2, h3, h4, rfl⟩
    refine .four b1 b2 b3 b4 ?_ h3 h4
    unfold SecondByteFits IsContinuation at h2
    split_ifs at h2 <;> omega

/-! ## The decoder reads concatenations of rows -/

/-- A row of the table is read as its scalar, whatever bytes follow it. -/
theorem scalarsOf_append_of_row {seq : List Byte} {c : Scalar} (row : Utf8Row seq c) (rest : List Byte) :
    scalarsOf (seq ++ rest) = (scalarsOf rest).map (c :: ·) := by
  cases row with
  | one b1 h1 =>
    have hc := utf8Row_one_iff.mp (.one b1 h1)
    simp [scalarsOf_cons, hc]
  | two b1 b2 h1 h2 =>
    have hc := utf8Row_two_iff.mp (.two b1 b2 h1 h2)
    simp [scalarsOf_cons, scalar1_eq_none (b1 := b1) (by omega), hc]
  | three b1 b2 b3 h1 h3 =>
    have hc := utf8Row_three_iff.mp (.three b1 b2 b3 h1 h3)
    have hlo : 0xE0 ≤ b1.toNat := by omega
    simp [scalarsOf_cons, scalar1_eq_none (b1 := b1) (by omega), scalar2_eq_none hlo, hc]
  | four b1 b2 b3 b4 h1 h3 h4 =>
    have hc := utf8Row_four_iff.mp (.four b1 b2 b3 b4 h1 h3 h4)
    have hlo : 0xF0 ≤ b1.toNat := by omega
    simp [scalarsOf_cons, scalar1_eq_none (b1 := b1) (by omega), scalar2_eq_none (b1 := b1) (by omega),
      scalar3_eq_none hlo, hc]

theorem scalarsOf_of_utf8Text {bytes : List Byte} {text : Text} (h : Utf8Text bytes text) :
    scalarsOf bytes = some text := by
  induction h with
  | nil => rfl
  | cons row _ ih => rw [scalarsOf_append_of_row row, ih, Option.map_some]

/-- A row and the text of what follows it, put together as the decoder does. -/
theorem Utf8Row.utf8Text_append {seq rest : List Byte} {c : Scalar} {text : Text} (row : Utf8Row seq c)
    (ih : ∀ {tail : Text}, scalarsOf rest = some tail → Utf8Text rest tail)
    (h : (scalarsOf rest).map (c :: ·) = some text) : Utf8Text (seq ++ rest) text := by
  obtain ⟨tail, htail, rfl⟩ := Option.map_eq_some_iff.mp h
  exact .cons row (ih htail)

theorem utf8Text_of_scalarsOf {bytes : List Byte} {text : Text} (h : scalarsOf bytes = some text) :
    Utf8Text bytes text := by
  fun_induction scalarsOf bytes generalizing text with
  | case1 =>
    cases h
    exact .nil
  | case2 b1 t1 c hc ih => exact (utf8Row_one_iff.mpr hc).utf8Text_append ih h
  | case4 b1 _ b2 t2 c hc ih => exact (utf8Row_two_iff.mpr hc).utf8Text_append ih h
  | case6 b1 _ b2 _ b3 t3 c hc ih => exact (utf8Row_three_iff.mpr hc).utf8Text_append ih h
  | case8 b1 _ b2 _ b3 _ b4 t4 c hc ih => exact (utf8Row_four_iff.mpr hc).utf8Text_append ih h
  | case3 | case5 | case7 | case9 => cases h

theorem scalarsOf_eq_some_iff {bytes : List Byte} {text : Text} : scalarsOf bytes = some text ↔ Utf8Text bytes text :=
  ⟨utf8Text_of_scalarsOf, scalarsOf_of_utf8Text⟩

theorem utf8Decode_eq_some_iff {bytes : List Byte} {text : Text} :
    utf8Decode bytes = some text ↔ bytes ≠ [] ∧ Utf8Text bytes text := by
  rw [← scalarsOf_eq_some_iff]
  cases bytes <;> simp [utf8Decode]

/-- The property of the decoder that every reading of the source shares (U8). -/
theorem utf8Decode_ascii {v : Byte} (h : v.toNat ≤ 0x7F) : utf8Decode [v] = some [v.toNat] :=
  utf8Decode_eq_some_iff.mpr ⟨by simp, .cons (.one v h) .nil⟩

/-! ## What a text's first bytes are (rule R157 d) -/

theorem utf8Decode_append_eq_none {bytes : List Byte} (h : ¬ Utf8Beginning bytes) (ext : List Byte) :
    utf8Decode (bytes ++ ext) = none := by
  refine Option.eq_none_iff_forall_ne_some.mpr fun text htext => ?_
  obtain ⟨-, hutf8⟩ := utf8Decode_eq_some_iff.mp htext
  exact h ⟨ext, text, hutf8⟩

/-- The first byte `b` and the bytes `bs` after it are such as the table admits in a first sequence: `bs` is held to the row of
`b` as far as that row reaches. -/
structure HeadFitsTable (b : Byte) (bs : List Byte) : Prop where
  first : b.toNat ≤ 0x7F ∨ (0xC2 ≤ b.toNat ∧ b.toNat ≤ 0xF4)
  second : 0xC2 ≤ b.toNat → ∀ c, bs[0]? = some c → SecondByteFits b c
  third : 0xE0 ≤ b.toNat → ∀ d, bs[1]? = some d → IsContinuation d
  fourth : 0xF0 ≤ b.toNat → ∀ e, bs[2]? = some e → IsContinuation e

theorem Utf8Row.headFitsTable {b : Byte} {bs seq rest : List Byte} {c : Scalar} (row : Utf8Row seq c)
    (h : b :: bs = seq ++ rest) : HeadFitsTable b bs := by
  cases row with
  | one b1 h1 =>
    obtain ⟨rfl, rfl⟩ := List.cons.inj h
    exact ⟨.inl h1, fun h => by omega, fun h => by omega, fun h => by omega⟩
  | two b1 b2 h1 h2 =>
    obtain ⟨rfl, rfl⟩ := List.cons.inj h
    have fits := (secondByteFits_iff_of_le h1.2).mpr h2
    exact ⟨.inr (by omega), fun _ => by simpa using fits, fun h => by omega, fun h => by omega⟩
  | three b1 b2 b3 h1 h3 =>
    obtain ⟨rfl, rfl⟩ := List.cons.inj h
    obtain ⟨hb, fits, hcont, -⟩ := scalar3_eq_some_iff.mp (utf8Row_three_iff.mp (.three b b2 b3 h1 h3))
    exact ⟨.inr (by omega), fun _ => by simpa using fits, fun _ => by simpa using hcont, fun h => by omega⟩
  | four b1 b2 b3 b4 h1 h3 h4 =>
    obtain ⟨rfl, rfl⟩ := List.cons.inj h
    obtain ⟨hb, fits, hcont3, hcont4, -⟩ := scalar4_eq_some_iff.mp (utf8Row_four_iff.mp (.four b b2 b3 b4 h1 h3 h4))
    exact ⟨.inr (by omega), fun _ => by simpa using fits, fun _ => by simpa using hcont3, fun _ => by simpa using hcont4⟩

theorem Utf8Text.headFitsTable {b : Byte} {bs : List Byte} {text : Text} (h : Utf8Text (b :: bs) text) :
    HeadFitsTable b bs := by
  generalize hbytes : b :: bs = bytes at h
  cases h with
  | nil => cases hbytes
  | cons row _ => exact row.headFitsTable hbytes

theorem utf8Decode_cons_eq_none {b : Byte} {bs : List Byte} (h : ¬ HeadFitsTable b bs) : utf8Decode (b :: bs) = none := by
  refine Option.eq_none_iff_forall_ne_some.mpr fun text htext => ?_
  obtain ⟨-, hutf8⟩ := utf8Decode_eq_some_iff.mp htext
  exact h hutf8.headFitsTable

/-! ## WRT with the default decoder -/

theorem exec_wrt (a f : Operand) (s : State) :
    exec (.wrt a f) s = .next (s.write (s.fetch a) (s.fetch f)).advancePC := rfl

/-- The one character of formats 1 to 3, by the number of the format (rules R153 to R155). -/
theorem State.write_of_format_ne_zero (s : State) (v : Byte) {f : Byte} (hf : f.toNat % 4 ≠ 0) :
    s.write v f =
      s.emit [if f.toNat % 4 = 1 then (if v.toNat ≤ 9 then 0x30 + v.toNat else 0x3F)
        else if f.toNat % 4 = 2 then (if v.toNat ≤ 25 then 0x41 + v.toNat else 0x3F)
        else if v.toNat ≤ 9 then 0x30 + v.toNat
        else if v.toNat ≤ 15 then 0x41 + (v.toNat - 10) else 0x3F] := by
  rw [State.write_eq, if_neg hf]
  by_cases h1 : f.toNat % 4 = 1
  · rw [if_pos h1, if_pos h1]
    rfl
  rw [if_neg h1, if_neg h1]
  by_cases h2 : f.toNat % 4 = 2
  · rw [if_pos h2, if_pos h2]
    rfl
  · rw [if_neg h2, if_neg h2]
    rfl

end Sys2Proof.Machine
end

section
/-! The statements of 43_wrt_output.md, settled. -/

namespace Sys2Proof.Proofs

open Sys2Proof.Machine

/-- Settles O34: the machine is the one of any decoder, at the default. -/
theorem wrtStreamsUtf8 : Obligations.WrtStreamsUtf8 := by
  intro a f s hf
  rw [← execWith_utf8Decode]
  exact wrtStreamsWithAnyDecoder utf8Decode a f s hf

/-- Settles O35. -/
theorem wrtPrintsOneCharacter : Obligations.WrtPrintsOneCharacter := by
  intro a f s c hf hc
  rw [exec_wrt, State.write_of_format_ne_zero s _ hf, ← hc]
  rfl

/-- Settles O36: each row function is its row of the table, and the decoder reads row after row. -/
theorem utf8DecodeIsTheTable : Obligations.Utf8DecodeIsTheTable := fun _ _ => utf8Decode_eq_some_iff

/-- Settles O37: what decodes begins as the table admits, so each broken beginning contradicts one field of
`HeadFitsTable`. -/
theorem brokenSequenceSilencesTheStream : Obligations.BrokenSequenceSilencesTheStream := by
  refine ⟨fun _ ext h => utf8Decode_append_eq_none h ext,
    fun b ext hb => utf8Decode_cons_eq_none fun h => ?first,
    fun b c ext hb hc => utf8Decode_cons_eq_none fun h => ?continuation,
    fun b c ext hb _ hc => utf8Decode_cons_eq_none fun h => hc (h.second hb c rfl),
    fun b c d ext hb hd => utf8Decode_cons_eq_none fun h => hd (h.third hb d rfl),
    fun b c d e ext hb he => utf8Decode_cons_eq_none fun h => he (h.fourth hb e rfl),
    fun a f s hf hv hnone => ?wrt⟩
  case first =>
    have := h.first
    omega
  case continuation =>
    have hcont : 0x80 ≤ c.toNat ∧ c.toNat ≤ 0xBF := (h.second hb c rfl).isContinuation
    omega
  case wrt =>
    refine ⟨_, wrtStreamsUtf8 a f s hf, ?_, fun ext => ?_⟩ <;> rw [if_neg hv, hnone []]
    · rfl
    · exact (congrArg utf8Decode (List.append_assoc s.acc [s.fetch a] ext)).trans (hnone ext)

/-- Settles O38: the default decoder agrees with every reading of the source on a single byte up to 7F. -/
theorem asciiIsEmittedAtOnce : Obligations.AsciiIsEmittedAtOnce := by
  intro a f s hacc hf hlo hhi
  rw [← execWith_utf8Decode]
  exact asciiUnderAnyAgreeingDecoder utf8Decode (fun _ _ hv => utf8Decode_ascii hv) a f s hacc hf hlo hhi

end Sys2Proof.Proofs
end

section
/-! SUPPORT. States a step leaves as they are, and the two instructions that leave `pc` where it is (rule R183). The statement
of 60_exceptions.md follows from it. -/

namespace Sys2Proof.Machine

@[simp] theorem State.withPc_self (s : State) : s.withPc s.regs.r7 = s := rfl

/-- A state that one step leaves as it is, every run leaves as it is. -/
theorem stepN_of_step_self {s : State} (h : step s = .next s) (n : Nat) : stepN n s = .next s := by
  induction n with
  | zero => rfl
  | succ n ih => rw [stepN_succ, h]; exact ih

/-- A JMP to its own word index (rule R111). -/
theorem exec_jmp_self (s : State) : exec (.jmp s.regs.r7) s = .next s := by
  obtain ⟨hjmp, -, -⟩ := Proofs.jumpNopAndClass3SetOnlyPc s.regs.r7 s
  rw [hjmp, State.withPc_self]

/-- JRE replaces `pc` by its byte sum with slot 0 (rule R136). -/
theorem exec_jre (s : State) : exec .jre s = .next (s.withPc (s.regs.r7 + s.regs.r0)) := by
  obtain ⟨t, ht, hframe, -, hpc⟩ := Proofs.jreAddsTheSignedOffset s
  rw [ht, hframe, hpc]

/-- A JRE by 0 (rule R136). -/
theorem exec_jre_self {s : State} (h : s.regs.r0 = 0) : exec .jre s = .next s := by
  have hpc : s.regs.r7 + s.regs.r0 = s.regs.r7 := by rw [h]; exact BitVec.add_zero s.regs.r7
  rw [exec_jre, hpc, State.withPc_self]

end Sys2Proof.Machine
end

section
/-! The statement of 60_exceptions.md, settled. -/

namespace Sys2Proof.Proofs

open Sys2Proof.Machine

/-- Settles O44: either instruction gives back the state it finds, so the step does, and so does every run. -/
theorem jumpToItselfNeverHalts : Obligations.JumpToItselfNeverHalts := by
  intro s w n hh hw hself
  have hexec : exec (decodeWord w) s = .next s := by
    rcases hself with hjmp | ⟨hjre, h0⟩
    · rw [hjmp]
      exact exec_jmp_self s
    · rw [hjre]
      exact exec_jre_self h0
  exact stepN_of_step_self ((stepBy_of_fetch_some exec hh hw).trans hexec) n

end Sys2Proof.Proofs
end

section
/-! SUPPORT. Runs in parts, and the run that stops once halted beside the run that does not (rules R193 and R197). The
statement of 70_reset_and_hazards.md follows from it. -/

namespace Sys2Proof.Machine

/-- A halted core, every number of steps leaves as it is (decision D13). -/
theorem stepN_of_halted {s : State} (hh : s.halted = true) (n : Nat) : stepN n s = .next s :=
  stepN_of_step_self (stepBy_of_halted exec hh) n

theorem stepN_succ_of_next {s t : State} (h : step s = .next t) (n : Nat) : stepN (n + 1) s = stepN n t := by
  rw [stepN_succ, h]

/-- Steps after steps. -/
theorem stepN_add (m : Nat) {n : Nat} : ∀ {s t : State}, stepN n s = .next t → stepN (n + m) s = stepN m t := by
  induction n with
  | zero =>
    intro s t h
    cases h
    rw [Nat.zero_add]
  | succ n ih =>
    intro s t h
    obtain ⟨u, hu⟩ := step_safe s
    rw [stepN_succ_of_next hu] at h
    rw [Nat.add_right_comm, stepN_succ_of_next hu, ih h]

/-- A run of a halted core makes no step (rule R197). -/
theorem runCapped_of_halted {s : State} (hh : s.halted = true) (n : Nat) : runCapped n s = .next s := by
  cases n with
  | zero => rfl
  | succ n => simp only [runCapped, runCappedBy, hh]

/-- A run of a core that is not halted begins with a step (rule R197). -/
theorem runCapped_succ_of_next {s t : State} (hh : s.halted = false) (h : step s = .next t) (n : Nat) :
    runCapped (n + 1) s = runCapped n t := by
  simp only [runCapped, runCappedBy, hh, h]

/-- The steps a capped run does not make once halted would change nothing. -/
theorem runCapped_eq_stepN (n : Nat) : ∀ s : State, runCapped n s = stepN n s := by
  induction n with
  | zero => exact fun _ => rfl
  | succ n ih =>
    intro s
    cases hh : s.halted with
    | true => rw [runCapped_of_halted hh, stepN_of_halted hh]
    | false =>
      obtain ⟨t, ht⟩ := step_safe s
      rw [runCapped_succ_of_next hh ht, stepN_succ_of_next ht, ih]

end Sys2Proof.Machine
end

section
/-! The statement of 70_reset_and_hazards.md, settled. -/

namespace Sys2Proof.Proofs

open Sys2Proof.Machine

/-- Settles O15: a capped run is its steps, and one step more of the halted state it ended in gives that state back. -/
theorem runIsRepeatedStep : Obligations.RunIsRepeatedStep := by
  refine fun n s => ⟨runCapped_eq_stepN n s, fun t hrun hh => ?_⟩
  have hsteps : stepN n s = .next t := (runCapped_eq_stepN n s).symm.trans hrun
  calc runCapped (n + 1) s
      = stepN (n + 1) s := runCapped_eq_stepN (n + 1) s
    _ = stepN 1 t := stepN_add 1 hsteps
    _ = .next t := stepN_of_halted hh 1

end Sys2Proof.Proofs
end
